-- ==== Sys2Proof/Word.lean ====
section
/-! DEFINITION. The word types of the core (00_scope.md R8-R10; 10_state.md R22, R26; 30_encoding.md R73-R79). -/

namespace Sys2Proof

/-- A memory cell or a general register (10_state.md R22, 20_memory.md R53). -/
abbrev Byte := BitVec 8

/-- An instruction word, `pc`, `I`, a stack slot or the key mask (10_state.md R26, R31, R32, R36). -/
abbrev Word := BitVec 16

/-- A 4-bit register selector `x` or `y` (30_encoding.md R76, R77). -/
abbrev Reg := BitVec 4

/-- A 4-bit literal `n` (30_encoding.md R79) or four bits the decoder ignores (R80, letter `z`). -/
abbrev Nibble := BitVec 4

/-- A 12-bit address `nnn` (30_encoding.md R75). -/
abbrev Addr12 := BitVec 12

/-- `VF`, the general register that is also the flag (10_state.md R23). -/
abbrev VF : Reg := 15#4

end Sys2Proof
end

