-- ==== Sys2Proof/Syntax.lean ====
section
/-! DEFINITION. The 34 instructions of 30_encoding.md R84, one constructor per row of spec/opcode_table.json, in its
order. An argument named `z` holds the bits the decoder ignores (R80): they change nothing an instruction does, and are
kept because a fault records the whole instruction word (60_exceptions.md R150-R153; log entry 6). -/

namespace Sys2Proof

/-- An instruction. Every operand has exactly the width of its field (30_encoding.md R73-R81), so every term is one the
encoding admits. -/
inductive Instr where
  /-- CLS (44_display.md R138) -/
  | cls (z : Nibble)
  /-- RET (41_control_flow.md R105) -/
  | ret (z : Nibble)
  /-- JP nnn (R106) -/
  | jp (nnn : Addr12)
  /-- CALL nnn (R107) -/
  | call (nnn : Addr12)
  /-- SE Vx,kk (R108) -/
  | seKk (x : Reg) (kk : Byte)
  /-- SNE Vx,kk (R109) -/
  | sneKk (x : Reg) (kk : Byte)
  /-- SE Vx,Vy (R110) -/
  | seXy (x y : Reg) (z : Nibble)
  /-- LD Vx,kk (42_alu.md R116) -/
  | ldKk (x : Reg) (kk : Byte)
  /-- ADD Vx,kk (R117) -/
  | addKk (x : Reg) (kk : Byte)
  /-- LD Vx,Vy (R118) -/
  | ldXy (x y : Reg)
  /-- OR Vx,Vy (R119) -/
  | orXy (x y : Reg)
  /-- AND Vx,Vy (R120) -/
  | andXy (x y : Reg)
  /-- XOR Vx,Vy (R121) -/
  | xorXy (x y : Reg)
  /-- ADD Vx,Vy (R122) -/
  | addXy (x y : Reg)
  /-- SUB Vx,Vy (R123) -/
  | subXy (x y : Reg)
  /-- SHR Vx (R124) -/
  | shr (x : Reg) (z : Nibble)
  /-- SUBN Vx,Vy (R125) -/
  | subnXy (x y : Reg)
  /-- SHL Vx (R126) -/
  | shl (x : Reg) (z : Nibble)
  /-- SNE Vx,Vy (41_control_flow.md R111) -/
  | sneXy (x y : Reg) (z : Nibble)
  /-- LD I,nnn (43_index_memory.md R129) -/
  | ldI (nnn : Addr12)
  /-- JP V0,nnn (41_control_flow.md R112) -/
  | jpV0 (nnn : Addr12)
  /-- RND Vx,kk (42_alu.md R127) -/
  | rnd (x : Reg) (kk : Byte)
  /-- DRW Vx,Vy,n (44_display.md R139) -/
  | drw (x y : Reg) (n : Nibble)
  /-- SKP Vx (45_input_timer.md R142) -/
  | skp (x : Reg)
  /-- SKNP Vx (R143) -/
  | sknp (x : Reg)
  /-- LD Vx,DT (R144) -/
  | ldVxDt (x : Reg)
  /-- LD Vx,K (R145) -/
  | ldVxK (x : Reg)
  /-- LD DT,Vx (R146) -/
  | ldDtVx (x : Reg)
  /-- LD ST,Vx (R147) -/
  | ldStVx (x : Reg)
  /-- ADD I,Vx (43_index_memory.md R130) -/
  | addI (x : Reg)
  /-- LD F,Vx (R132) -/
  | ldF (x : Reg)
  /-- LD B,Vx (R133) -/
  | ldB (x : Reg)
  /-- LD [I],Vx (R134) -/
  | ldStore (x : Reg)
  /-- LD Vx,[I] (R135) -/
  | ldLoad (x : Reg)
  deriving DecidableEq, Repr

end Sys2Proof
end

