-- ==== Sys2Proof/WellFormed.lean ====
section
/-! DEFINITION. Well-formedness. An `Instr` is well-formed by its type: each operand has the width of its field, and
30_encoding.md R87 reserves no operand value. What can be ill-formed is a line of assembly (R89, R90), whose registers
and numbers are still plain numbers; its check is here, its assembling in Sys2Proof/Decode.lean. -/

namespace Sys2Proof

/-- The mnemonics of 30_encoding.md R84, in the source's spelling. -/
inductive Mnemonic where
  | CLS | RET | JP | CALL | SE | SNE | LD | ADD | OR | AND | XOR | SUB | SHR | SUBN | SHL | RND | DRW | SKP | SKNP
  deriving DecidableEq, Repr

/-- An operand of an assembly line (30_encoding.md R89). -/
inductive AsmOperand where
  /-- a general register `V<n>` -/
  | reg (n : Nat)
  /-- an immediate, an address or a count -/
  | num (n : Nat)
  /-- `I` -/
  | index
  /-- `DT` -/
  | delay
  /-- `ST` -/
  | sound
  /-- `K` -/
  | key
  /-- `F` -/
  | font
  /-- `B` -/
  | bcd
  /-- `[I]` -/
  | atIndex
  deriving DecidableEq, Repr

/-- A line of assembly: a mnemonic and its operands (30_encoding.md R89). -/
structure AsmLine where
  mnemonic : Mnemonic
  operands : List AsmOperand
  deriving DecidableEq, Repr

/-- A register number names one of V0..VF (10_state.md R22). -/
def regOk (n : Nat) : Bool := n < 16
/-- An immediate fits the 8 bits of `kk` (30_encoding.md R78). -/
def immOk (n : Nat) : Bool := n < 256
/-- An address fits the 12 bits of `nnn` (30_encoding.md R75). -/
def addrOk (n : Nat) : Bool := n < 4096
/-- A count fits the 4 bits of `n` (30_encoding.md R79). -/
def countOk (n : Nat) : Bool := n < 16

/-- The line has one of the forms of 30_encoding.md R84 and R89, with every register and number in range. The `LD`, `SE`,
`SNE`, `ADD` and `JP` forms are told apart by their operands; `SHR` and `SHL` may name a second register, which goes to
bits 7:4 (R89). -/
def AsmLine.wellFormed (l : AsmLine) : Bool :=
  match l.mnemonic, l.operands with
  | .CLS, [] => true
  | .RET, [] => true
  | .JP, [.num a] => addrOk a
  | .JP, [.reg x, .num a] => x == 0 && addrOk a
  | .CALL, [.num a] => addrOk a
  | .SE, [.reg x, .num k] => regOk x && immOk k
  | .SE, [.reg x, .reg y] => regOk x && regOk y
  | .SNE, [.reg x, .num k] => regOk x && immOk k
  | .SNE, [.reg x, .reg y] => regOk x && regOk y
  | .LD, [.reg x, .num k] => regOk x && immOk k
  | .LD, [.reg x, .reg y] => regOk x && regOk y
  | .LD, [.index, .num a] => addrOk a
  | .LD, [.reg x, .delay] => regOk x
  | .LD, [.reg x, .key] => regOk x
  | .LD, [.delay, .reg x] => regOk x
  | .LD, [.sound, .reg x] => regOk x
  | .LD, [.font, .reg x] => regOk x
  | .LD, [.bcd, .reg x] => regOk x
  | .LD, [.atIndex, .reg x] => regOk x
  | .LD, [.reg x, .atIndex] => regOk x
  | .ADD, [.reg x, .num k] => regOk x && immOk k
  | .ADD, [.reg x, .reg y] => regOk x && regOk y
  | .ADD, [.index, .reg x] => regOk x
  | .OR, [.reg x, .reg y] => regOk x && regOk y
  | .AND, [.reg x, .reg y] => regOk x && regOk y
  | .XOR, [.reg x, .reg y] => regOk x && regOk y
  | .SUB, [.reg x, .reg y] => regOk x && regOk y
  | .SUBN, [.reg x, .reg y] => regOk x && regOk y
  | .SHR, [.reg x] => regOk x
  | .SHR, [.reg x, .reg y] => regOk x && regOk y
  | .SHL, [.reg x] => regOk x
  | .SHL, [.reg x, .reg y] => regOk x && regOk y
  | .RND, [.reg x, .num k] => regOk x && immOk k
  | .DRW, [.reg x, .reg y, .num n] => regOk x && regOk y && countOk n
  | .SKP, [.reg x] => regOk x
  | .SKNP, [.reg x] => regOk x
  | _, _ => false

end Sys2Proof
end

