-- ==== Sys2Proof/Decode.lean ====
section
/-! DEFINITION. From words to instructions and back (30_encoding.md), and from assembly lines to instructions and back
(30_encoding.md R89, R90). -/

namespace Sys2Proof

/-! ## Fields of an instruction word (R74-R79) -/

/-- `op = w[15:12]` (R74). -/
def fieldOp (w : Word) : BitVec 4 := w.extractLsb' 12 4
/-- `nnn = w[11:0]` (R75). -/
def fieldNnn (w : Word) : Addr12 := w.extractLsb' 0 12
/-- `x = w[11:8]` (R76). -/
def fieldX (w : Word) : Reg := w.extractLsb' 8 4
/-- `y = w[7:4]` (R77). -/
def fieldY (w : Word) : Reg := w.extractLsb' 4 4
/-- `kk = w[7:0]` (R78). -/
def fieldKk (w : Word) : Byte := w.extractLsb' 0 8
/-- `n = w[3:0]` (R79). -/
def fieldN (w : Word) : Nibble := w.extractLsb' 0 4

/-! ## Decoding -/

/-- Why bytes are no instruction. -/
inductive DecodeError where
  /-- The word is one of the INVALID words of R86. -/
  | invalidOpcode (w : Word)
  /-- Fewer than two bytes: an instruction is always two (R73, R88). -/
  | truncated
  deriving DecidableEq, Repr

/-- Class 0x0 dispatches on the low byte; bits 11:8 are ignored (R82). -/
def decodeClass0 (w : Word) : Except DecodeError Instr :=
  match (fieldKk w).toNat with
  | 0xE0 => .ok (.cls (fieldX w))
  | 0xEE => .ok (.ret (fieldX w))
  | _ => .error (.invalidOpcode w)

/-- Class 0x8 dispatches on the low nibble; SHR and SHL ignore bits 7:4 (R82). -/
def decodeClass8 (w : Word) : Except DecodeError Instr :=
  match (fieldN w).toNat with
  | 0x0 => .ok (.ldXy (fieldX w) (fieldY w))
  | 0x1 => .ok (.orXy (fieldX w) (fieldY w))
  | 0x2 => .ok (.andXy (fieldX w) (fieldY w))
  | 0x3 => .ok (.xorXy (fieldX w) (fieldY w))
  | 0x4 => .ok (.addXy (fieldX w) (fieldY w))
  | 0x5 => .ok (.subXy (fieldX w) (fieldY w))
  | 0x6 => .ok (.shr (fieldX w) (fieldY w))
  | 0x7 => .ok (.subnXy (fieldX w) (fieldY w))
  | 0xE => .ok (.shl (fieldX w) (fieldY w))
  | _ => .error (.invalidOpcode w)

/-- Class 0xE dispatches on the low byte (R82). -/
def decodeClassE (w : Word) : Except DecodeError Instr :=
  match (fieldKk w).toNat with
  | 0x9E => .ok (.skp (fieldX w))
  | 0xA1 => .ok (.sknp (fieldX w))
  | _ => .error (.invalidOpcode w)

/-- Class 0xF dispatches on the low byte (R82). -/
def decodeClassF (w : Word) : Except DecodeError Instr :=
  match (fieldKk w).toNat with
  | 0x07 => .ok (.ldVxDt (fieldX w))
  | 0x0A => .ok (.ldVxK (fieldX w))
  | 0x15 => .ok (.ldDtVx (fieldX w))
  | 0x18 => .ok (.ldStVx (fieldX w))
  | 0x1E => .ok (.addI (fieldX w))
  | 0x29 => .ok (.ldF (fieldX w))
  | 0x33 => .ok (.ldB (fieldX w))
  | 0x55 => .ok (.ldStore (fieldX w))
  | 0x65 => .ok (.ldLoad (fieldX w))
  | _ => .error (.invalidOpcode w)

/-- `Decode(w)` (R82, R83): the top nibble selects a class, and classes 0x0, 0x8, 0xE and 0xF dispatch a second time. -/
def decodeWord (w : Word) : Except DecodeError Instr :=
  match (fieldOp w).toNat with
  | 0x0 => decodeClass0 w
  | 0x1 => .ok (.jp (fieldNnn w))
  | 0x2 => .ok (.call (fieldNnn w))
  | 0x3 => .ok (.seKk (fieldX w) (fieldKk w))
  | 0x4 => .ok (.sneKk (fieldX w) (fieldKk w))
  | 0x5 => .ok (.seXy (fieldX w) (fieldY w) (fieldN w))
  | 0x6 => .ok (.ldKk (fieldX w) (fieldKk w))
  | 0x7 => .ok (.addKk (fieldX w) (fieldKk w))
  | 0x8 => decodeClass8 w
  | 0x9 => .ok (.sneXy (fieldX w) (fieldY w) (fieldN w))
  | 0xA => .ok (.ldI (fieldNnn w))
  | 0xB => .ok (.jpV0 (fieldNnn w))
  | 0xC => .ok (.rnd (fieldX w) (fieldKk w))
  | 0xD => .ok (.drw (fieldX w) (fieldY w) (fieldN w))
  | 0xE => decodeClassE w
  | _ => decodeClassF w

/-- The instruction at the front of a byte sequence, big-endian (20_memory.md R56), and the bytes after it. -/
def decode : List Byte → Except DecodeError (Instr × List Byte)
  | hi :: lo :: rest =>
    match decodeWord (hi ++ lo) with
    | .ok i => .ok (i, rest)
    | .error e => .error e
  | _ => .error .truncated

/-! ## Encoding -/

/-- The word of an instruction, from the patterns of R84. -/
def encode : Instr → Word
  | .cls z => 0x0#4 ++ z ++ 0xE0#8
  | .ret z => 0x0#4 ++ z ++ 0xEE#8
  | .jp nnn => 0x1#4 ++ nnn
  | .call nnn => 0x2#4 ++ nnn
  | .seKk x kk => 0x3#4 ++ x ++ kk
  | .sneKk x kk => 0x4#4 ++ x ++ kk
  | .seXy x y z => 0x5#4 ++ x ++ y ++ z
  | .ldKk x kk => 0x6#4 ++ x ++ kk
  | .addKk x kk => 0x7#4 ++ x ++ kk
  | .ldXy x y => 0x8#4 ++ x ++ y ++ 0x0#4
  | .orXy x y => 0x8#4 ++ x ++ y ++ 0x1#4
  | .andXy x y => 0x8#4 ++ x ++ y ++ 0x2#4
  | .xorXy x y => 0x8#4 ++ x ++ y ++ 0x3#4
  | .addXy x y => 0x8#4 ++ x ++ y ++ 0x4#4
  | .subXy x y => 0x8#4 ++ x ++ y ++ 0x5#4
  | .shr x z => 0x8#4 ++ x ++ z ++ 0x6#4
  | .subnXy x y => 0x8#4 ++ x ++ y ++ 0x7#4
  | .shl x z => 0x8#4 ++ x ++ z ++ 0xE#4
  | .sneXy x y z => 0x9#4 ++ x ++ y ++ z
  | .ldI nnn => 0xA#4 ++ nnn
  | .jpV0 nnn => 0xB#4 ++ nnn
  | .rnd x kk => 0xC#4 ++ x ++ kk
  | .drw x y n => 0xD#4 ++ x ++ y ++ n
  | .skp x => 0xE#4 ++ x ++ 0x9E#8
  | .sknp x => 0xE#4 ++ x ++ 0xA1#8
  | .ldVxDt x => 0xF#4 ++ x ++ 0x07#8
  | .ldVxK x => 0xF#4 ++ x ++ 0x0A#8
  | .ldDtVx x => 0xF#4 ++ x ++ 0x15#8
  | .ldStVx x => 0xF#4 ++ x ++ 0x18#8
  | .addI x => 0xF#4 ++ x ++ 0x1E#8
  | .ldF x => 0xF#4 ++ x ++ 0x29#8
  | .ldB x => 0xF#4 ++ x ++ 0x33#8
  | .ldStore x => 0xF#4 ++ x ++ 0x55#8
  | .ldLoad x => 0xF#4 ++ x ++ 0x65#8

/-- The two bytes of an instruction as memory holds them, the byte of bits 15:8 at the lower address (20_memory.md R56). -/
def encodeBytes (i : Instr) : List Byte := [(encode i).extractLsb' 8 8, (encode i).extractLsb' 0 8]

/-- The bytes of an opcode-table word of `nbits` bits: one 16-bit word, its bits above `nbits` zero, high byte first. -/
def tableBytes (nbits w : Nat) : List Byte :=
  [BitVec.ofNat 8 (w % 2 ^ nbits / 256), BitVec.ofNat 8 (w % 2 ^ nbits)]

/-- The instruction the decoder reads from the word `w` of an opcode-table row. -/
def decodeTableWord (nbits w : Nat) : Option Instr :=
  match decode (tableBytes nbits w) with
  | .ok (i, _) => some i
  | .error _ => none

/-! ## The opcode map as masks and patterns (R83, R84) -/

/-- A row of the map: a word is the row's when the bits `mask` selects equal `pattern`. -/
structure OpcodeRow where
  mnemonic : String
  pattern : Word
  mask : Word
  deriving DecidableEq, Repr

/-- The word is the row's (R83). -/
def OpcodeRow.hasWord (r : OpcodeRow) (w : Word) : Bool := w &&& r.mask == r.pattern

/-- The row of R84 that an instruction stands in. -/
def Instr.row : Instr → OpcodeRow
  | .cls _ => ⟨"CLS", 0x00E0, 0xF0FF⟩
  | .ret _ => ⟨"RET", 0x00EE, 0xF0FF⟩
  | .jp _ => ⟨"JP", 0x1000, 0xF000⟩
  | .call _ => ⟨"CALL", 0x2000, 0xF000⟩
  | .seKk _ _ => ⟨"SE_kk", 0x3000, 0xF000⟩
  | .sneKk _ _ => ⟨"SNE_kk", 0x4000, 0xF000⟩
  | .seXy _ _ _ => ⟨"SE_xy", 0x5000, 0xF000⟩
  | .ldKk _ _ => ⟨"LD_kk", 0x6000, 0xF000⟩
  | .addKk _ _ => ⟨"ADD_kk", 0x7000, 0xF000⟩
  | .ldXy _ _ => ⟨"LD_xy", 0x8000, 0xF00F⟩
  | .orXy _ _ => ⟨"OR", 0x8001, 0xF00F⟩
  | .andXy _ _ => ⟨"AND", 0x8002, 0xF00F⟩
  | .xorXy _ _ => ⟨"XOR", 0x8003, 0xF00F⟩
  | .addXy _ _ => ⟨"ADD_xy", 0x8004, 0xF00F⟩
  | .subXy _ _ => ⟨"SUB", 0x8005, 0xF00F⟩
  | .shr _ _ => ⟨"SHR", 0x8006, 0xF00F⟩
  | .subnXy _ _ => ⟨"SUBN", 0x8007, 0xF00F⟩
  | .shl _ _ => ⟨"SHL", 0x800E, 0xF00F⟩
  | .sneXy _ _ _ => ⟨"SNE_xy", 0x9000, 0xF000⟩
  | .ldI _ => ⟨"LD_I", 0xA000, 0xF000⟩
  | .jpV0 _ => ⟨"JP_V0", 0xB000, 0xF000⟩
  | .rnd _ _ => ⟨"RND", 0xC000, 0xF000⟩
  | .drw _ _ _ => ⟨"DRW", 0xD000, 0xF000⟩
  | .skp _ => ⟨"SKP", 0xE09E, 0xF0FF⟩
  | .sknp _ => ⟨"SKNP", 0xE0A1, 0xF0FF⟩
  | .ldVxDt _ => ⟨"LD_Vx_DT", 0xF007, 0xF0FF⟩
  | .ldVxK _ => ⟨"LD_Vx_K", 0xF00A, 0xF0FF⟩
  | .ldDtVx _ => ⟨"LD_DT_Vx", 0xF015, 0xF0FF⟩
  | .ldStVx _ => ⟨"LD_ST_Vx", 0xF018, 0xF0FF⟩
  | .addI _ => ⟨"ADD_I", 0xF01E, 0xF0FF⟩
  | .ldF _ => ⟨"LD_F", 0xF029, 0xF0FF⟩
  | .ldB _ => ⟨"LD_B", 0xF033, 0xF0FF⟩
  | .ldStore _ => ⟨"LD_store", 0xF055, 0xF0FF⟩
  | .ldLoad _ => ⟨"LD_load", 0xF065, 0xF0FF⟩

/-- One instruction of every row of classes 0x0 to 0x7, in the order of R84. -/
def rowSamples07 : List Instr :=
  [.cls 0, .ret 0, .jp 0, .call 0, .seKk 0 0, .sneKk 0 0, .seXy 0 0 0, .ldKk 0 0, .addKk 0 0]

/-- One instruction of every row of class 0x8. -/
def rowSamples8 : List Instr :=
  [.ldXy 0 0, .orXy 0 0, .andXy 0 0, .xorXy 0 0, .addXy 0 0, .subXy 0 0, .shr 0 0, .subnXy 0 0, .shl 0 0]

/-- One instruction of every row of classes 0x9 to 0xE. -/
def rowSamples9E : List Instr :=
  [.sneXy 0 0 0, .ldI 0, .jpV0 0, .rnd 0 0, .drw 0 0 0, .skp 0, .sknp 0]

/-- One instruction of every row of class 0xF. -/
def rowSamplesF : List Instr :=
  [.ldVxDt 0, .ldVxK 0, .ldDtVx 0, .ldStVx 0, .addI 0, .ldF 0, .ldB 0, .ldStore 0, .ldLoad 0]

/-- One instruction of every row, in the order of R84. -/
def rowSamples : List Instr := rowSamples07 ++ rowSamples8 ++ rowSamples9E ++ rowSamplesF

/-- The opcode map of R84: 34 rows. -/
def opcodeMap : List OpcodeRow := rowSamples.map Instr.row

/-! ## Assembly (R89, R90; log entry 12) -/

/-- The instruction with the bits the decoder ignores at 0, as an assembler emits it. -/
def Instr.clearIgnored : Instr → Instr
  | .cls _ => .cls 0
  | .ret _ => .ret 0
  | .seXy x y _ => .seXy x y 0
  | .sneXy x y _ => .sneXy x y 0
  | .shr x _ => .shr x 0
  | .shl x _ => .shl x 0
  | i => i

/-- The assembly line of an instruction (R84, R89). -/
def Instr.toAsm : Instr → AsmLine
  | .cls _ => ⟨.CLS, []⟩
  | .ret _ => ⟨.RET, []⟩
  | .jp nnn => ⟨.JP, [.num nnn.toNat]⟩
  | .call nnn => ⟨.CALL, [.num nnn.toNat]⟩
  | .seKk x kk => ⟨.SE, [.reg x.toNat, .num kk.toNat]⟩
  | .sneKk x kk => ⟨.SNE, [.reg x.toNat, .num kk.toNat]⟩
  | .seXy x y _ => ⟨.SE, [.reg x.toNat, .reg y.toNat]⟩
  | .ldKk x kk => ⟨.LD, [.reg x.toNat, .num kk.toNat]⟩
  | .addKk x kk => ⟨.ADD, [.reg x.toNat, .num kk.toNat]⟩
  | .ldXy x y => ⟨.LD, [.reg x.toNat, .reg y.toNat]⟩
  | .orXy x y => ⟨.OR, [.reg x.toNat, .reg y.toNat]⟩
  | .andXy x y => ⟨.AND, [.reg x.toNat, .reg y.toNat]⟩
  | .xorXy x y => ⟨.XOR, [.reg x.toNat, .reg y.toNat]⟩
  | .addXy x y => ⟨.ADD, [.reg x.toNat, .reg y.toNat]⟩
  | .subXy x y => ⟨.SUB, [.reg x.toNat, .reg y.toNat]⟩
  | .shr x _ => ⟨.SHR, [.reg x.toNat]⟩
  | .subnXy x y => ⟨.SUBN, [.reg x.toNat, .reg y.toNat]⟩
  | .shl x _ => ⟨.SHL, [.reg x.toNat]⟩
  | .sneXy x y _ => ⟨.SNE, [.reg x.toNat, .reg y.toNat]⟩
  | .ldI nnn => ⟨.LD, [.index, .num nnn.toNat]⟩
  | .jpV0 nnn => ⟨.JP, [.reg 0, .num nnn.toNat]⟩
  | .rnd x kk => ⟨.RND, [.reg x.toNat, .num kk.toNat]⟩
  | .drw x y n => ⟨.DRW, [.reg x.toNat, .reg y.toNat, .num n.toNat]⟩
  | .skp x => ⟨.SKP, [.reg x.toNat]⟩
  | .sknp x => ⟨.SKNP, [.reg x.toNat]⟩
  | .ldVxDt x => ⟨.LD, [.reg x.toNat, .delay]⟩
  | .ldVxK x => ⟨.LD, [.reg x.toNat, .key]⟩
  | .ldDtVx x => ⟨.LD, [.delay, .reg x.toNat]⟩
  | .ldStVx x => ⟨.LD, [.sound, .reg x.toNat]⟩
  | .addI x => ⟨.ADD, [.index, .reg x.toNat]⟩
  | .ldF x => ⟨.LD, [.font, .reg x.toNat]⟩
  | .ldB x => ⟨.LD, [.bcd, .reg x.toNat]⟩
  | .ldStore x => ⟨.LD, [.atIndex, .reg x.toNat]⟩
  | .ldLoad x => ⟨.LD, [.reg x.toNat, .atIndex]⟩

/-- The instruction of a line of the right form, its numbers taken into their fields; none for another form. -/
def AsmLine.build (l : AsmLine) : Option Instr :=
  match l.mnemonic, l.operands with
  | .CLS, [] => some (.cls 0)
  | .RET, [] => some (.ret 0)
  | .JP, [.num a] => some (.jp (.ofNat 12 a))
  | .JP, [.reg _, .num a] => some (.jpV0 (.ofNat 12 a))
  | .CALL, [.num a] => some (.call (.ofNat 12 a))
  | .SE, [.reg x, .num k] => some (.seKk (.ofNat 4 x) (.ofNat 8 k))
  | .SE, [.reg x, .reg y] => some (.seXy (.ofNat 4 x) (.ofNat 4 y) 0)
  | .SNE, [.reg x, .num k] => some (.sneKk (.ofNat 4 x) (.ofNat 8 k))
  | .SNE, [.reg x, .reg y] => some (.sneXy (.ofNat 4 x) (.ofNat 4 y) 0)
  | .LD, [.reg x, .num k] => some (.ldKk (.ofNat 4 x) (.ofNat 8 k))
  | .LD, [.reg x, .reg y] => some (.ldXy (.ofNat 4 x) (.ofNat 4 y))
  | .LD, [.index, .num a] => some (.ldI (.ofNat 12 a))
  | .LD, [.reg x, .delay] => some (.ldVxDt (.ofNat 4 x))
  | .LD, [.reg x, .key] => some (.ldVxK (.ofNat 4 x))
  | .LD, [.delay, .reg x] => some (.ldDtVx (.ofNat 4 x))
  | .LD, [.sound, .reg x] => some (.ldStVx (.ofNat 4 x))
  | .LD, [.font, .reg x] => some (.ldF (.ofNat 4 x))
  | .LD, [.bcd, .reg x] => some (.ldB (.ofNat 4 x))
  | .LD, [.atIndex, .reg x] => some (.ldStore (.ofNat 4 x))
  | .LD, [.reg x, .atIndex] => some (.ldLoad (.ofNat 4 x))
  | .ADD, [.reg x, .num k] => some (.addKk (.ofNat 4 x) (.ofNat 8 k))
  | .ADD, [.reg x, .reg y] => some (.addXy (.ofNat 4 x) (.ofNat 4 y))
  | .ADD, [.index, .reg x] => some (.addI (.ofNat 4 x))
  | .OR, [.reg x, .reg y] => some (.orXy (.ofNat 4 x) (.ofNat 4 y))
  | .AND, [.reg x, .reg y] => some (.andXy (.ofNat 4 x) (.ofNat 4 y))
  | .XOR, [.reg x, .reg y] => some (.xorXy (.ofNat 4 x) (.ofNat 4 y))
  | .SUB, [.reg x, .reg y] => some (.subXy (.ofNat 4 x) (.ofNat 4 y))
  | .SUBN, [.reg x, .reg y] => some (.subnXy (.ofNat 4 x) (.ofNat 4 y))
  | .SHR, [.reg x] => some (.shr (.ofNat 4 x) 0)
  | .SHR, [.reg x, .reg y] => some (.shr (.ofNat 4 x) (.ofNat 4 y))
  | .SHL, [.reg x] => some (.shl (.ofNat 4 x) 0)
  | .SHL, [.reg x, .reg y] => some (.shl (.ofNat 4 x) (.ofNat 4 y))
  | .RND, [.reg x, .num k] => some (.rnd (.ofNat 4 x) (.ofNat 8 k))
  | .DRW, [.reg x, .reg y, .num n] => some (.drw (.ofNat 4 x) (.ofNat 4 y) (.ofNat 4 n))
  | .SKP, [.reg x] => some (.skp (.ofNat 4 x))
  | .SKNP, [.reg x] => some (.sknp (.ofNat 4 x))
  | _, _ => none

/-- Assembling a line: refused unless it is well-formed. -/
def AsmLine.assemble (l : AsmLine) : Option Instr := if l.wellFormed then l.build else none

/-! ## The text of a line (R89) -/

/-- The digit characters, upper case as the spec writes them. -/
def hexDigit (d : Nat) : Char :=
  ['0', '1', '2', '3', '4', '5', '6', '7', '8', '9', 'A', 'B', 'C', 'D', 'E', 'F'].getD (d % 16) '0'

/-- A number in hex with a `0x` prefix: two digits up to 0xFF, else three (the widest operand has 12 bits). -/
def numberText (n : Nat) : List Char :=
  if n < 256 then ['0', 'x', hexDigit (n / 16), hexDigit n]
  else ['0', 'x', hexDigit (n / 256), hexDigit (n / 16), hexDigit n]

def AsmOperand.text : AsmOperand → List Char
  | .reg n => ['V', hexDigit n]
  | .num n => numberText n
  | .index => ['I']
  | .delay => ['D', 'T']
  | .sound => ['S', 'T']
  | .key => ['K']
  | .font => ['F']
  | .bcd => ['B']
  | .atIndex => ['[', 'I', ']']

/-- The mnemonics with their letters. -/
def mnemonicTextsOne : List (Mnemonic × List Char) :=
  [(.CLS, ['C', 'L', 'S']), (.RET, ['R', 'E', 'T']), (.JP, ['J', 'P']), (.CALL, ['C', 'A', 'L', 'L']),
   (.SE, ['S', 'E']), (.SNE, ['S', 'N', 'E']), (.LD, ['L', 'D']), (.ADD, ['A', 'D', 'D']), (.OR, ['O', 'R'])]

/-- The rest of the mnemonics with their letters. -/
def mnemonicTextsTwo : List (Mnemonic × List Char) :=
  [(.AND, ['A', 'N', 'D']), (.XOR, ['X', 'O', 'R']), (.SUB, ['S', 'U', 'B']), (.SHR, ['S', 'H', 'R']),
   (.SUBN, ['S', 'U', 'B', 'N']), (.SHL, ['S', 'H', 'L']), (.RND, ['R', 'N', 'D']), (.DRW, ['D', 'R', 'W']),
   (.SKP, ['S', 'K', 'P']), (.SKNP, ['S', 'K', 'N', 'P'])]

/-- Every mnemonic with its letters (R84). -/
def mnemonicTexts : List (Mnemonic × List Char) := mnemonicTextsOne ++ mnemonicTextsTwo

def Mnemonic.text (m : Mnemonic) : List Char :=
  match mnemonicTexts.find? (fun p => p.1 == m) with
  | some p => p.2
  | none => []

/-- Operands separated by commas, no spaces. -/
def operandsText : List AsmOperand → List Char
  | [] => []
  | [o] => o.text
  | o :: os => o.text ++ ',' :: operandsText os

/-- A mnemonic, a space, then the operands (R89). -/
def AsmLine.text (l : AsmLine) : List Char :=
  match l.operands with
  | [] => l.mnemonic.text
  | os => l.mnemonic.text ++ ' ' :: operandsText os

/-- A digit's value; both cases of a hex letter are read. -/
def digitValue (c : Char) : Option Nat :=
  if '0' ≤ c ∧ c ≤ '9' then some (c.toNat - 48)
  else if 'A' ≤ c ∧ c ≤ 'F' then some (c.toNat - 55)
  else if 'a' ≤ c ∧ c ≤ 'f' then some (c.toNat - 87)
  else none

/-- Digits of a base, most significant first, after a value already read. -/
def readDigits (base : Nat) : Nat → List Char → Option Nat
  | acc, [] => some acc
  | acc, c :: cs =>
    match digitValue c with
    | some d => if d < base then readDigits base (acc * base + d) cs else none
    | none => none

/-- A number: hex after `0x`, else decimal (R89). -/
def readNumber : List Char → Option Nat
  | '0' :: 'x' :: c :: cs => readDigits 16 0 (c :: cs)
  | c :: cs => readDigits 10 0 (c :: cs)
  | [] => none

/-- One operand (R89). -/
def readOperand : List Char → Option AsmOperand
  | ['I'] => some .index
  | ['D', 'T'] => some .delay
  | ['S', 'T'] => some .sound
  | ['K'] => some .key
  | ['F'] => some .font
  | ['B'] => some .bcd
  | ['[', 'I', ']'] => some .atIndex
  | ['V', c] => if 'a' ≤ c then none else (digitValue c).map .reg
  | cs => (readNumber cs).map .num

/-- The pieces between separators. -/
def splitAtChar (sep : Char) : List Char → List (List Char)
  | [] => [[]]
  | c :: cs =>
    if c = sep then [] :: splitAtChar sep cs
    else match splitAtChar sep cs with
      | p :: ps => (c :: p) :: ps
      | [] => [[c]]

/-- Every operand read, or none. -/
def readOperands : List (List Char) → Option (List AsmOperand)
  | [] => some []
  | p :: ps =>
    match readOperand p, readOperands ps with
    | some o, some os => some (o :: os)
    | _, _ => none

/-- A line of assembly text (R89): a mnemonic alone, or a mnemonic, a space and comma-separated operands. -/
def readLine (cs : List Char) : Option AsmLine :=
  match splitAtChar ' ' cs with
  | [m] => (mnemonicTexts.find? (fun p => p.2 == m)).map (fun p => ⟨p.1, []⟩)
  | [m, os] =>
    match mnemonicTexts.find? (fun p => p.2 == m), readOperands (splitAtChar ',' os) with
    | some p, some ops => some ⟨p.1, ops⟩
    | _, _ => none
  | _ => none

end Sys2Proof
end

