-- ==== Sys2Proof/Config.lean ====
section
/-! DEFINITION. The implementation parameters of 00_scope.md R6, the font of 43_index_memory.md R131, and the values the
spec leaves free (log entries 3 and 11). -/

namespace Sys2Proof.Config

/-- MEM_SIZE (R6). -/
abbrev memSize : Nat := 4096
/-- The last memory address, 0xFFF (R6, 20_memory.md R53). -/
abbrev lastAddr : Nat := 0xFFF
/-- PROG_BASE (R6): where the image goes and the first address an instruction may be fetched from (40_cycle.md R92). -/
abbrev progBase : Nat := 0x200
/-- The last address an instruction may be fetched from (40_cycle.md R92). -/
abbrev lastFetch : Nat := 0xFFE
/-- MAX_IMAGE (R6). -/
abbrev maxImage : Nat := 3584
/-- STACK_DEPTH (R6). -/
abbrev stackDepth : Nat := 16
/-- FB_W (R6). -/
abbrev fbWidth : Nat := 64
/-- FB_H (R6). -/
abbrev fbHeight : Nat := 32
/-- NKEYS (R6). -/
abbrev numKeys : Nat := 16
/-- TIMER_HZ (R6): real time, which no step depends on (70_reset_and_hazards.md R184). -/
abbrev timerHz : Nat := 60
/-- FONT_BASE (R6, decision D15). -/
abbrev fontBase : Nat := 0x000
/-- FONT_GLYPH (R6, decision D15): bytes per glyph. -/
abbrev glyphBytes : Nat := 5

/-- IPS (R6, marked OPEN): the instruction rate. It has no value here and no step reads it (log entry 11). -/
opaque ips : Nat

/-- The byte that draw number `k` finds on the random port when the host has queued none: a free value, "any value from
0 to 255, under no law" (10_state.md R51; log entry 3). -/
opaque freeRandom : Nat → Byte

/-- The glyph rows of digits 0 to 7 (43_index_memory.md R131). -/
def glyphs07 : List Byte :=
  [0xF0, 0x90, 0x90, 0x90, 0xF0,  0x20, 0x60, 0x20, 0x20, 0x70,
   0xF0, 0x10, 0xF0, 0x80, 0xF0,  0xF0, 0x10, 0xF0, 0x10, 0xF0,
   0x90, 0x90, 0xF0, 0x10, 0x10,  0xF0, 0x80, 0xF0, 0x10, 0xF0,
   0xF0, 0x80, 0xF0, 0x90, 0xF0,  0xF0, 0x10, 0x20, 0x40, 0x40]

/-- The glyph rows of digits 8 to F (43_index_memory.md R131). -/
def glyphs8F : List Byte :=
  [0xF0, 0x90, 0xF0, 0x90, 0xF0,  0xF0, 0x90, 0xF0, 0x10, 0xF0,
   0xF0, 0x90, 0xF0, 0x90, 0x90,  0xE0, 0x90, 0xE0, 0x90, 0xE0,
   0xF0, 0x80, 0x80, 0x80, 0xF0,  0xE0, 0x90, 0x90, 0x90, 0xE0,
   0xF0, 0x80, 0xF0, 0x80, 0xF0,  0xF0, 0x80, 0xF0, 0x80, 0x80]

/-- The 80 bytes of the built-in font, in address order from `fontBase` (43_index_memory.md R131). -/
def fontBytes : List Byte := glyphs07 ++ glyphs8F

end Sys2Proof.Config
end

