-- ==== Sys2Proof/Machine/State.lean ====
section
/-! DEFINITION. The state of the core (10_state.md R21), the inputs of the host and the timer engine that are still to
land, the reasons a step can stop, and the state after reset (10_state.md R46). -/

namespace Sys2Proof.Machine

/-- Memory contents: the cells that differ from the reset contents, by rising address (20_memory.md R53; what an
unlisted address reads as is `initialByte`, Machine/Ops.lean). -/
abbrev Memory := List Host.Cell

/-- The framebuffer: 32 rows of 64 one-bit pixels; bit `x` of row `y` is `FB[y][x]` (10_state.md R35). -/
abbrev Framebuffer := Vector (BitVec 64) 32

/-- The run status (10_state.md R39). -/
inductive Status where
  /-- 0: the CPU fetches and executes. -/
  | running
  /-- 1: the CPU is suspended in `LD Vx,K`. -/
  | waitingKey
  /-- 2: the run ended by the run flag. -/
  | stopped
  /-- 3: the run ended by a fatal condition. -/
  | faulted
  deriving DecidableEq, Repr

/-- A fault cause (60_exceptions.md R149). -/
inductive Cause where
  /-- 0: the reset value, no fault. -/
  | none
  /-- 1 (R150) -/
  | invalidOpcode
  /-- 2 (R151) -/
  | stackOverflow
  /-- 3 (R152) -/
  | stackUnderflow
  /-- 4 (R153) -/
  | addressRange
  /-- 5 (R154) -/
  | fetchRange
  /-- 6 (R155) -/
  | loadOverflow
  deriving DecidableEq, Repr

/-- The fault record (10_state.md R41). -/
structure FaultRecord where
  cause : Cause
  word : Word
  addr : Word
  deriving DecidableEq, Repr

/-- What lands at an instruction boundary: the inputs of 10_state.md R47, R48 and R52 (20_memory.md R67; log entry 1). -/
inductive Event where
  /-- The scheduler grants the CPU one step (R52, 40_cycle.md R91). -/
  | step
  /-- The 60 Hz event: the timer engine takes one step (R52, 60_exceptions.md R163). -/
  | tick
  /-- The host changes the key mask (R48). -/
  | keys (mask : Word)
  /-- The host changes the run flag (R43). -/
  | run (flag : Bool)
  /-- The host strobes reset (R52, 70_reset_and_hazards.md R172). -/
  | reset
  /-- The host loads an image (R47, 70_reset_and_hazards.md R175-R177). -/
  | load (image : List Byte)
  deriving DecidableEq, Repr

/-- Why the machine has no next step. A fatal condition of the core is not one of these: its entry is a next state with
`status = FAULTED` (60_exceptions.md R156). -/
inductive Fault where
  /-- Raised by `cpuStep` when `status = FAULTED` and no event is pending: the run has ended and the CPU and the timer
  engine take no step (10_state.md R40). Safe: it allows nothing the hardware forbids. -/
  | runFaulted
  /-- Raised by `cpuStep` when `status = STOPPED` and no event is pending (10_state.md R40). Safe, as `runFaulted`. -/
  | runStopped
  deriving DecidableEq, Repr

/-- What the model gives no meaning. -/
inductive Refusal where
  /-- An instruction without a meaning. No arm of `exec` answers it: every instruction of the table has its meaning. Safe. -/
  | notModelled (mnemonic : String)
  /-- Raised by `State.load` for a load that is not the one load between a reset and the first CPU step after it:
  "The model gives a load at any other time no meaning and refuses it" (70_reset_and_hazards.md R177). Safe. -/
  | loadOutOfOrder
  deriving DecidableEq, Repr

/-- The state. The names are the spec's (00_scope.md R11). -/
structure State where
  /-- `V[0]`..`V[15]` (10_state.md R22) -/
  v : Vector Byte 16
  /-- The index register `I` (R31) -/
  i : Word
  /-- The program counter (R26) -/
  pc : Word
  /-- The stack pointer, 0 to 16: the number of live return addresses (R32) -/
  sp : Fin 17
  /-- The slots `S[1]`..`S[16]`; slot `S[k]` stands at index `k-1` (R32) -/
  stack : Vector Word 16
  /-- The delay timer `DT` (R34) -/
  dt : Byte
  /-- The sound timer `ST` (R34) -/
  st : Byte
  /-- The memory `M` (R37) -/
  mem : Memory
  /-- The framebuffer `FB` (R35) -/
  fb : Framebuffer
  /-- `status` (R39) -/
  status : Status
  /-- The fault record (R41) -/
  fault : FaultRecord
  /-- The register a key wait will write (R42) -/
  waitReg : Reg
  /-- The key mask last seen by the wait (R42) -/
  prevKeys : Word
  /-- The host's key mask `KEYS` (R36) -/
  keys : Word
  /-- The host's run flag (R43) -/
  run : Bool
  /-- A load is still accepted: no CPU step and no load has happened since the reset (70_reset_and_hazards.md R177;
  log entry 4) -/
  loadOpen : Bool
  /-- The model's own: the events that land at the coming boundaries, in order (log entry 1) -/
  pending : List Event
  /-- The model's own: the bytes the host has presented on the random port and no `RND` has sampled (R51; log entry 3) -/
  rnd : List Byte
  /-- The model's own: how many draws have been taken; it indexes the free draws (R51; log entry 3) -/
  draws : Nat
  deriving DecidableEq, Repr

/-- The state right after reset (10_state.md R46). `keys` and `run` are the host's, which a reset does not touch; the
values here are log entry 2's, and the model's own fields have log entries 1, 3 and 4. -/
def State.reset : State where
  v := Vector.replicate 16 0
  i := 0
  pc := 0x0200
  sp := 0
  stack := Vector.replicate 16 0
  dt := 0
  st := 0
  mem := []
  fb := Vector.replicate 32 0
  status := .running
  fault := ⟨.none, 0, 0⟩
  waitReg := 0
  prevKeys := 0
  keys := 0
  run := true
  loadOpen := true
  pending := []
  rnd := []
  draws := 0

end Sys2Proof.Machine
end

