-- ==== Sys2Proof/Machine/Ops.lean ====
section
/-! DEFINITION. The operations over memory, registers, stack, framebuffer and random port that the meanings share, and
taking a fault. -/

namespace Sys2Proof.Machine

/-- What a step answers. -/
abbrev Answer := Host.Outcome State Fault Refusal

/-! ## Memory (20_memory.md) -/

/-- What an address holds after reset: the font at `fontBase`, 0 elsewhere (10_state.md R46, 43_index_memory.md R131). -/
def initialByte (a : Nat) : Byte :=
  if Config.fontBase ≤ a then Config.fontBytes.getD (a - Config.fontBase) 0 else 0

/-- The byte at an address (20_memory.md R61). Instructions reach it only for addresses up to 0xFFF, after their range
check (R60; log entry 8). -/
def readByte : Memory → Nat → Byte
  | [], a => initialByte a
  | (b, u) :: m, a => if b = a then u else readByte m a

/-- The contents without an entry for `a`. -/
def eraseByte (m : Memory) (a : Nat) : Memory := m.filter (fun c => c.1 != a)

/-- A new entry before the first one at a higher address. -/
def insertByte (a : Nat) (u : Byte) : Memory → Memory
  | [] => [(a, u)]
  | (b, w) :: m => if a < b then (a, u) :: (b, w) :: m else (b, w) :: insertByte a u m

/-- Write a byte (20_memory.md R61), keeping the canonical form: no entry equals what the address reads as unlisted. -/
def writeByte (m : Memory) (a : Nat) (u : Byte) : Memory :=
  if u = initialByte a then eraseByte m a else insertByte a u (eraseByte m a)

/-- Write bytes at ascending addresses from `a` (20_memory.md R57). -/
def writeBytes : Memory → Nat → List Byte → Memory
  | m, _, [] => m
  | m, a, u :: us => writeBytes (writeByte m a u) (a + 1) us

/-- The `n` bytes from `a`, ascending. -/
def readBytes (m : Memory) (a n : Nat) : List Byte := (List.range n).map (fun k => readByte m (a + k))

/-- `MemRead(a, 2)`: two bytes as one big-endian word (00_scope.md R12, 20_memory.md R56). -/
def readWord (m : Memory) (a : Nat) : Word := readByte m a ++ readByte m (a + 1)

/-- The canonical form: addresses inside memory and strictly rising, no entry equal to the reset contents. -/
abbrev Memory.wf (m : Memory) : Prop :=
  m.Pairwise (fun c d => c.1 < d.1) ∧ ∀ c ∈ m, c.1 < Config.memSize ∧ c.2 ≠ initialByte c.1

/-- The range check of 20_memory.md R60: an access of `n` bytes from `a` reaches no address past 0xFFF; an access of no
byte always passes. -/
def inRange (a n : Nat) : Bool := n == 0 || a + n - 1 ≤ Config.lastAddr

/-- `MemRead` of `n` single bytes from `a`, the whole range checked first (00_scope.md R12, 20_memory.md R60). -/
def State.loadBlock (s : State) (a n : Nat) : Except Cause (List Byte) :=
  if inRange a n then .ok (readBytes s.mem a n) else .error .addressRange

/-- `MemWrite` of single bytes from `a`, the whole range checked first (00_scope.md R12, 20_memory.md R60). -/
def State.storeBlock (s : State) (a : Nat) (bs : List Byte) : Except Cause State :=
  if inRange a bs.length then .ok { s with mem := writeBytes s.mem a bs } else .error .addressRange

/-! ## Registers (10_state.md) -/

/-- Read `V[x]` (R22, R24). -/
def State.getV (s : State) (x : Reg) : Byte := s.v[x.toNat]'x.isLt

/-- Write `V[x]` (R22, R24). -/
def State.setV (s : State) (x : Reg) (b : Byte) : State := { s with v := s.v.set x.toNat b x.isLt }

/-- Write `I` (R31). -/
def State.setI (s : State) (a : Word) : State := { s with i := a }

/-- Write `pc` (R26). -/
def State.setPc (s : State) (a : Word) : State := { s with pc := a }

/-- Write `DT` (R34). -/
def State.setDt (s : State) (b : Byte) : State := { s with dt := b }

/-- Write `ST` (R34). -/
def State.setSt (s : State) (b : Byte) : State := { s with st := b }

/-- The prologue's `pc <- pc + 2` (40_cycle.md R94). -/
def State.advance (s : State) : State := s.setPc (s.pc + 2)

/-! ## The call stack (10_state.md R32, R33) -/

/-- Slot `S[k]`, for `1 <= k <= 16`. -/
def State.slot (s : State) (k : Nat) : Word := s.stack.toList.getD (k - 1) 0

/-- Push a return address: `S[sp+1] <- a; sp <- sp + 1` (41_control_flow.md R107). -/
def State.push (s : State) (a : Word) : Except Cause State :=
  if h : s.sp.val < 16 then
    .ok { s with stack := s.stack.set s.sp.val a h, sp := ⟨s.sp.val + 1, by omega⟩ }
  else .error .stackOverflow

/-- Pop into `pc`: `pc <- S[sp]; sp <- sp - 1`, the slot keeping its value (41_control_flow.md R105). -/
def State.popPc (s : State) : Except Cause State :=
  if s.sp.val = 0 then .error .stackUnderflow
  else .ok { s with pc := s.slot s.sp.val, sp := ⟨s.sp.val - 1, by have := s.sp.isLt; omega⟩ }

/-! ## The framebuffer (10_state.md R35) -/

/-- `FB[y][x]`. -/
def pixel (fb : Framebuffer) (x y : Nat) : Bool := (fb.toList.getD y 0).getLsbD x

/-- `FB[y][x] <- FB[y][x] XOR 1`. -/
def flipPixel (fb : Framebuffer) (x y : Nat) : Framebuffer :=
  fb.setIfInBounds y (fb.toList.getD y 0 ^^^ BitVec.twoPow 64 x)

/-- Every pixel 0. -/
def clearFb : Framebuffer := Vector.replicate 32 0

/-- Write `FB`. -/
def State.setFb (s : State) (fb : Framebuffer) : State := { s with fb := fb }

/-! ## The random port (10_state.md R51) -/

/-- The byte the next draw finds: the host's next byte, or a free value when the host has queued none (log entry 3). -/
def State.nextDraw (s : State) : Byte :=
  match s.rnd with
  | r :: _ => r
  | [] => Config.freeRandom s.draws

/-- One draw is consumed (42_alu.md R127). -/
def State.takeDraw (s : State) : State := { s with rnd := s.rnd.tail, draws := s.draws + 1 }

/-! ## The key wait (10_state.md R42) -/

/-- Suspend the CPU until a key is pressed (45_input_timer.md R145). -/
def State.enterWait (s : State) (x : Reg) : State :=
  { s with waitReg := x, prevKeys := s.keys, status := .waitingKey }

/-! ## Taking a fault (60_exceptions.md R156) -/

/-- Fault entry: exactly `status` and the fault record are written; everything else keeps its value, `pc` included. There
is no handler and no return from a fault (R148, R158); only a reset leaves `FAULTED`. -/
def State.raise (s : State) (c : Cause) (w a : Word) : State :=
  { s with status := .faulted, fault := ⟨c, w, a⟩ }

/-- Commit an instruction's staged writes, or discard them all and take the fault (40_cycle.md R97). `s` is the state from
before the step, so its `pc` is the instruction's address, and the word recorded is the instruction's. -/
def State.complete (s : State) (i : Instr) : Except Cause State → Answer
  | .ok t => .next t
  | .error c => .next (s.raise c (encode i) s.pc)

end Sys2Proof.Machine
end

