-- ==== Sys2Proof/Machine/Boundary.lean ====
section
/-! DEFINITION. What the timer engine and the host do at an instruction boundary (20_memory.md R67). -/

namespace Sys2Proof.Machine

/-! ## The timer engine (60_exceptions.md R163) -/

/-- The run has ended (10_state.md R40). -/
def State.ended (s : State) : Bool := s.status == .stopped || s.status == .faulted

/-- One less, stopping at 0. -/
def countDown (b : Byte) : Byte := if b = 0 then 0 else b - 1

/-- The timer tick: both timers count down while the run has not ended (R163, R165). -/
def State.timerTick (s : State) : State :=
  if s.ended then s else { s with dt := countDown s.dt, st := countDown s.st }

/-! ## The host -/

/-- Reset: every piece of core state takes the value of 10_state.md R46. `KEYS` and `run` belong to the host and stay
(70_reset_and_hazards.md R172), and so do the host's inputs still to come. -/
def State.afterReset (s : State) : State :=
  { State.reset with keys := s.keys, run := s.run, pending := s.pending, rnd := s.rnd, draws := s.draws }

/-- The load port: one load between a reset and the first CPU step (70_reset_and_hazards.md R177); an image that fits is
copied to 0x200 (R175), a larger one writes no byte and faults (R176). -/
def State.load (s : State) (image : List Byte) : Answer :=
  if s.loadOpen then
    let t := { s with loadOpen := false }
    if image.length ≤ Config.maxImage then .next { t with mem := writeBytes s.mem Config.progBase image }
    else .next (t.raise .loadOverflow 0x0000 0x0200)
  else .refused .loadOutOfOrder

end Sys2Proof.Machine
end

