-- ==== Sys2Proof/Machine/Flags.lean ====
section
/-! DEFINITION. Every value VF takes as a flag (10_state.md R23, R30). -/

namespace Sys2Proof.Machine

/-- VF is 1 or 0. -/
def flagByte (b : Bool) : Byte := if b then 1 else 0

/-- ADD: the true sum exceeds 255 (42_alu.md R114, R122). -/
def carryOut (a b : Byte) : Bool := decide (a.toNat + b.toNat > 255)

/-- SUB and SUBN: no borrow, the minuend is at least the subtrahend (R114, R123, R125). -/
def noBorrow (minuend subtrahend : Byte) : Bool := decide (minuend.toNat ≥ subtrahend.toNat)

/-- SHR: bit 0 before the shift (R124). -/
def lowBit (a : Byte) : Bool := a.getLsbD 0

/-- SHL: bit 7 before the shift (R126). -/
def highBit (a : Byte) : Bool := a.getLsbD 7

/-- Result first, then the flag: the row order of ADD Vx,Vy, so the flag stands when `x` is F (R115). -/
def State.resultThenFlag (s : State) (x : Reg) (r : Byte) (f : Bool) : State := (s.setV x r).setV VF (flagByte f)

/-- Flag first, then the result: the row order of SUB, SHR, SUBN and SHL, so the result stands when `x` is F (R115). -/
def State.flagThenResult (s : State) (x : Reg) (r : Byte) (f : Bool) : State := (s.setV VF (flagByte f)).setV x r

end Sys2Proof.Machine
end

