-- ==== Sys2Proof/Machine/Operands.lean ====
section
/-! DEFINITION. The operand forms: addresses, skips, keys, digits, register blocks and sprite coordinates. -/

namespace Sys2Proof.Machine

/-- `zext_16(nnn)`: a 12-bit absolute address (30_encoding.md R81). -/
def addrWord (nnn : Addr12) : Word := nnn.setWidth 16

/-- A register's value as a 16-bit number (00_scope.md R10). -/
def byteWord (b : Byte) : Word := b.setWidth 16

/-- A skip: `pc <- pc + 2` if the condition holds (40_cycle.md R104). -/
def State.skipIf (s : State) (c : Bool) : State := if c then s.setPc (s.pc + 2) else s

/-- The key an instruction names: `V[x] mod 16` (45_input_timer.md R141). -/
def State.keyNumber (s : State) (x : Reg) : Nat := (s.getV x).toNat % Config.numKeys

/-- `KEYS[k] = 1` (10_state.md R36). -/
def State.keyDown (s : State) (k : Nat) : Bool := s.keys.getLsbD k

/-- The font address of a digit: `FONT_BASE + 5 * (v mod 16)` (43_index_memory.md R132). -/
def glyphAddr (v : Byte) : Word := BitVec.ofNat 16 (Config.fontBase + Config.glyphBytes * (v.toNat % 16))

/-- Hundreds, tens and units (43_index_memory.md R133). -/
def bcdDigits (v : Byte) : List Byte :=
  [BitVec.ofNat 8 (v.toNat / 100), BitVec.ofNat 8 (v.toNat / 10 % 10), BitVec.ofNat 8 (v.toNat % 10)]

/-- `V0..Vx` in ascending order (43_index_memory.md R134). -/
def State.firstRegs (s : State) (x : Reg) : List Byte := s.v.toList.take (x.toNat + 1)

/-- Load registers from number `k` up, ascending (43_index_memory.md R135). -/
def loadRegs : Vector Byte 16 → Nat → List Byte → Vector Byte 16
  | v, _, [] => v
  | v, k, b :: bs => loadRegs (v.setIfInBounds k b) (k + 1) bs

/-- The registers after a block load from `V0` up. -/
def State.setFirstRegs (s : State) (bs : List Byte) : State := { s with v := loadRegs s.v 0 bs }

/-- A sprite's start column, `V[x] mod 64` (44_display.md R139). -/
def startColumn (v : Byte) : Nat := v.toNat % Config.fbWidth

/-- A sprite's start row, `V[y] mod 32` (44_display.md R139). -/
def startRow (v : Byte) : Nat := v.toNat % Config.fbHeight

end Sys2Proof.Machine
end

