-- ==== Sys2Proof/Machine/Alu.lean ====
section
/-! DEFINITION. Register and ALU instructions (42_alu.md). Results are 8 bits wide, so they are reduced mod 256 (R114);
every operand is read from the state before the instruction (R115). -/

namespace Sys2Proof.Machine

/-- R116 LD Vx,kk. -/
def execLdKk (x : Reg) (kk : Byte) (s : State) : Answer := .next (s.advance.setV x kk)

/-- R117 ADD Vx,kk: no flag. -/
def execAddKk (x : Reg) (kk : Byte) (s : State) : Answer := .next (s.advance.setV x (s.getV x + kk))

/-- R118 LD Vx,Vy. -/
def execLdXy (x y : Reg) (s : State) : Answer := .next (s.advance.setV x (s.getV y))

/-- R119 OR Vx,Vy. -/
def execOrXy (x y : Reg) (s : State) : Answer := .next (s.advance.setV x (s.getV x ||| s.getV y))

/-- R120 AND Vx,Vy. -/
def execAndXy (x y : Reg) (s : State) : Answer := .next (s.advance.setV x (s.getV x &&& s.getV y))

/-- R121 XOR Vx,Vy. -/
def execXorXy (x y : Reg) (s : State) : Answer := .next (s.advance.setV x (s.getV x ^^^ s.getV y))

/-- R122 ADD Vx,Vy. -/
def execAddXy (x y : Reg) (s : State) : Answer :=
  .next (s.advance.resultThenFlag x (s.getV x + s.getV y) (carryOut (s.getV x) (s.getV y)))

/-- R123 SUB Vx,Vy. -/
def execSubXy (x y : Reg) (s : State) : Answer :=
  .next (s.advance.flagThenResult x (s.getV x - s.getV y) (noBorrow (s.getV x) (s.getV y)))

/-- R124 SHR Vx. -/
def execShr (x : Reg) (s : State) : Answer := .next (s.advance.flagThenResult x (s.getV x >>> 1) (lowBit (s.getV x)))

/-- R125 SUBN Vx,Vy. -/
def execSubnXy (x y : Reg) (s : State) : Answer :=
  .next (s.advance.flagThenResult x (s.getV y - s.getV x) (noBorrow (s.getV y) (s.getV x)))

/-- R126 SHL Vx. -/
def execShl (x : Reg) (s : State) : Answer := .next (s.advance.flagThenResult x (s.getV x <<< 1) (highBit (s.getV x)))

/-- R127 RND Vx,kk: one draw is consumed, whatever `kk` is. -/
def execRnd (x : Reg) (kk : Byte) (s : State) : Answer := .next (s.advance.takeDraw.setV x (s.nextDraw &&& kk))

end Sys2Proof.Machine
end

