-- ==== Sys2Proof/Machine/Control.lean ====
section
/-! DEFINITION. Control transfer (41_control_flow.md). Each meaning is given the state at the instruction's boundary and
begins with the prologue `advance` (40_cycle.md R94). -/

namespace Sys2Proof.Machine

/-- R105 RET. -/
def execRet (z : Nibble) (s : State) : Answer := s.complete (.ret z) s.advance.popPc

/-- R106 JP nnn. -/
def execJp (nnn : Addr12) (s : State) : Answer := .next (s.advance.setPc (addrWord nnn))

/-- R107 CALL nnn: the address pushed is the prologue's `pc`. -/
def execCall (nnn : Addr12) (s : State) : Answer :=
  s.complete (.call nnn) ((s.advance.push s.advance.pc).map (fun t => t.setPc (addrWord nnn)))

/-- R108 SE Vx,kk. -/
def execSeKk (x : Reg) (kk : Byte) (s : State) : Answer := .next (s.advance.skipIf (s.getV x == kk))

/-- R109 SNE Vx,kk. -/
def execSneKk (x : Reg) (kk : Byte) (s : State) : Answer := .next (s.advance.skipIf (s.getV x != kk))

/-- R110 SE Vx,Vy. -/
def execSeXy (x y : Reg) (s : State) : Answer := .next (s.advance.skipIf (s.getV x == s.getV y))

/-- R111 SNE Vx,Vy. -/
def execSneXy (x y : Reg) (s : State) : Answer := .next (s.advance.skipIf (s.getV x != s.getV y))

/-- R112 JP V0,nnn: the sum is exact, it fits 16 bits. -/
def execJpV0 (nnn : Addr12) (s : State) : Answer := .next (s.advance.setPc (addrWord nnn + byteWord (s.getV 0)))

end Sys2Proof.Machine
end

