-- ==== Sys2Proof/Machine/Display.lean ====
section
/-! DEFINITION. Display instructions (44_display.md). -/

namespace Sys2Proof.Machine

/-- One set sprite bit: the pixel is flipped, and it collides if it was set (R139). -/
def drawPixel (x y : Nat) (p : Framebuffer × Bool) : Framebuffer × Bool :=
  (flipPixel p.1 x y, p.2 || pixel p.1 x y)

/-- Columns `c` to 7 of a sprite byte on row `y`, bit 7 leftmost (R137), wrapping at column 63 (R139). -/
def drawRow (b : Byte) (x0 y : Nat) : List Nat → Framebuffer × Bool → Framebuffer × Bool
  | [], p => p
  | c :: cs, p => drawRow b x0 y cs (if b.getLsbD (7 - c) then drawPixel ((x0 + c) % Config.fbWidth) y p else p)

/-- The sprite bytes from row offset `r` on, wrapping at row 31 (R139). -/
def drawSprite (x0 y0 : Nat) : Nat → List Byte → Framebuffer × Bool → Framebuffer × Bool
  | _, [], p => p
  | r, b :: bs, p => drawSprite x0 y0 (r + 1) bs (drawRow b x0 ((y0 + r) % Config.fbHeight) (List.range 8) p)

/-- The framebuffer and the collision after drawing a sprite, from no collision (R139). -/
def draw (fb : Framebuffer) (x0 y0 : Nat) (bs : List Byte) : Framebuffer × Bool := drawSprite x0 y0 0 bs (fb, false)

/-- R138 CLS. -/
def execCls (s : State) : Answer := .next (s.advance.setFb clearFb)

/-- The writes of DRW, once the sprite is read: the framebuffer, then VF (R139). -/
def State.drawn (s : State) (x y : Reg) (bs : List Byte) : State :=
  let p := draw s.fb (startColumn (s.getV x)) (startRow (s.getV y)) bs
  (s.setFb p.1).setV VF (flagByte p.2)

/-- R139 DRW Vx,Vy,n. -/
def execDrw (x y : Reg) (n : Nibble) (s : State) : Answer :=
  s.complete (.drw x y n) ((s.loadBlock s.i.toNat n.toNat).map (fun bs => s.advance.drawn x y bs))

end Sys2Proof.Machine
end

