-- ==== Sys2Proof/Machine/IndexMemory.lean ====
section
/-! DEFINITION. Index register and memory instructions (43_index_memory.md). The effective address is `I` plus the offset,
exact (R128). -/

namespace Sys2Proof.Machine

/-- R129 LD I,nnn. -/
def execLdI (nnn : Addr12) (s : State) : Answer := .next (s.advance.setI (addrWord nnn))

/-- R130 ADD I,Vx: modulo 2^16, no flag. -/
def execAddI (x : Reg) (s : State) : Answer := .next (s.advance.setI (s.i + byteWord (s.getV x)))

/-- R132 LD F,Vx. -/
def execLdF (x : Reg) (s : State) : Answer := .next (s.advance.setI (glyphAddr (s.getV x)))

/-- R133 LD B,Vx. -/
def execLdB (x : Reg) (s : State) : Answer :=
  s.complete (.ldB x) (s.advance.storeBlock s.i.toNat (bcdDigits (s.getV x)))

/-- R134 LD [I],Vx. -/
def execLdStore (x : Reg) (s : State) : Answer :=
  s.complete (.ldStore x) (s.advance.storeBlock s.i.toNat (s.firstRegs x))

/-- R135 LD Vx,[I]. -/
def execLdLoad (x : Reg) (s : State) : Answer :=
  s.complete (.ldLoad x) ((s.loadBlock s.i.toNat (x.toNat + 1)).map (fun bs => s.advance.setFirstRegs bs))

end Sys2Proof.Machine
end

