-- ==== Sys2Proof/Machine/InputTimer.lean ====
section
/-! DEFINITION. Key and timer instructions (45_input_timer.md). -/

namespace Sys2Proof.Machine

/-- R142 SKP Vx. -/
def execSkp (x : Reg) (s : State) : Answer := .next (s.advance.skipIf (s.keyDown (s.keyNumber x)))

/-- R143 SKNP Vx. -/
def execSknp (x : Reg) (s : State) : Answer := .next (s.advance.skipIf (!s.keyDown (s.keyNumber x)))

/-- R144 LD Vx,DT. -/
def execLdVxDt (x : Reg) (s : State) : Answer := .next (s.advance.setV x s.dt)

/-- R145 LD Vx,K: the wait begins here and ends in a later poll (40_cycle.md R99). -/
def execLdVxK (x : Reg) (s : State) : Answer := .next (s.advance.enterWait x)

/-- R146 LD DT,Vx. -/
def execLdDtVx (x : Reg) (s : State) : Answer := .next (s.advance.setDt (s.getV x))

/-- R147 LD ST,Vx. -/
def execLdStVx (x : Reg) (s : State) : Answer := .next (s.advance.setSt (s.getV x))

end Sys2Proof.Machine
end

