-- ==== Sys2Proof/Machine/Cycle.lean ====
section
/-! DEFINITION. The CPU step: fetch, decode, execute, key-wait poll and stop (40_cycle.md), and which agent acts at a
boundary. -/

namespace Sys2Proof.Machine

/-- An instruction may be fetched from here (40_cycle.md R92). -/
def fetchable (pc : Word) : Bool := decide (Config.progBase ≤ pc.toNat) && decide (pc.toNat ≤ Config.lastFetch)

/-- The word at `pc`, big-endian, as memory stands now (40_cycle.md R93). -/
def State.fetchWord (s : State) : Word := readWord s.mem s.pc.toNat

/-- The instruction step: the fetch check, the fetch, the decode and the execution (40_cycle.md R92-R96). -/
def instructionStep (s : State) : Answer :=
  if fetchable s.pc then
    match decodeWord s.fetchWord with
    | .ok i => exec i s
    | .error _ => .next (s.raise .invalidOpcode s.fetchWord s.pc)
  else .next (s.raise .fetchRange 0x0000 s.pc)

/-- The least bit of a mask that is 1 (40_cycle.md R99). -/
def lowestKey (mask : Word) : Option Nat := (List.range Config.numKeys).find? (fun k => mask.getLsbD k)

/-- The key-wait poll: a key that is 1 now and was 0 at the last sample ends the wait (40_cycle.md R99). -/
def State.poll (s : State) : State :=
  match lowestKey (s.keys &&& ~~~s.prevKeys) with
  | some k => { s.setV s.waitReg (BitVec.ofNat 8 k) with status := .running }
  | none => { s with prevKeys := s.keys }

/-- The stop at a boundary where `run = 0` (40_cycle.md R101). -/
def State.stop (s : State) : State := { s with status := .stopped }

/-- A CPU step has begun, so no load is accepted any more (70_reset_and_hazards.md R177). -/
def State.closeLoad (s : State) : State := { s with loadOpen := false }

/-- The CPU step, by the first case that applies (40_cycle.md R91). -/
def cpuStep (s : State) : Answer :=
  match s.status with
  | .stopped => .fault .runStopped
  | .faulted => .fault .runFaulted
  | .waitingKey => if s.run then .next s.closeLoad.poll else .next s.closeLoad.stop
  | .running => if s.run then instructionStep s.closeLoad else .next s.closeLoad.stop

/-- One event at a boundary. A step granted after the run has ended is ignored (93_implementation_defined.md part 1
row 16; log entry 5). -/
def boundaryEvent (e : Event) (s : State) : Answer :=
  match e with
  | .step => if s.ended then .next s else cpuStep s
  | .tick => .next s.timerTick
  | .keys mask => .next { s with keys := mask }
  | .run flag => .next { s with run := flag }
  | .reset => .next s.afterReset
  | .load image => s.load image

/-- What happens next: the first pending event, or the CPU's next step (60_exceptions.md R165; log entry 1). -/
def nextAction (s : State) : Answer :=
  match s.pending with
  | [] => cpuStep s
  | e :: rest => boundaryEvent e { s with pending := rest }

/-- The state whose next action is to fetch and run the word whose bytes are `bs`: they stand at `pc`, the CPU is running
and nothing else is pending; a `pc` no instruction can be fetched from becomes the entry point (log entry 10). -/
def State.withNextBytes (s : State) (bs : List Byte) : State :=
  let pc := if fetchable s.pc then s.pc else 0x0200
  { s with pc := pc, mem := writeBytes s.mem pc.toNat bs, status := .running, run := true, pending := [] }

end Sys2Proof.Machine
end

