-- ==== Sys2Proof/Machine/Ports.lean ====
section
/-! DEFINITION. The output ports (10_state.md R49, R50, R52): functions of the state at an instruction boundary
(44_display.md R140), which change nothing. -/

namespace Sys2Proof.Machine

/-- The code of `status` (10_state.md R39). -/
def Status.code : Status → BitVec 2
  | .running => 0
  | .waitingKey => 1
  | .stopped => 2
  | .faulted => 3

/-- The code of a cause (60_exceptions.md R149). -/
def Cause.code : Cause → BitVec 3
  | .none => 0
  | .invalidOpcode => 1
  | .stackOverflow => 2
  | .stackUnderflow => 3
  | .addressRange => 4
  | .fetchRange => 5
  | .loadOverflow => 6

/-- Bit `k` of the framebuffer port `fb[2047:0]`: `fb[y*64 + x] = FB[y][x]`, row-major (R35, R49). -/
def State.fbPort (s : State) (k : Nat) : Bool := pixel s.fb (k % Config.fbWidth) (k / Config.fbWidth)

/-- The audio port's `st[7:0]` (R50). -/
def State.stPort (s : State) : Byte := s.st

/-- The audio port's `tone` (R50, 60_exceptions.md R167). -/
def State.tonePort (s : State) : Bool := s.st != 0

/-- `status[1:0]` (R52). R38 says that the host reads the key-wait state through this port too, and R52's list of outputs
has no `waitReg` and no `prevKeys`: the model follows R52's list and gives them no output port (DEDUCED, log entry 16). -/
def State.statusPort (s : State) : BitVec 2 := s.status.code

/-- `fault_cause[2:0]` (R52). -/
def State.causePort (s : State) : BitVec 3 := s.fault.cause.code

/-- `fault_word[15:0]` (R52). -/
def State.wordPort (s : State) : Word := s.fault.word

/-- `fault_addr[15:0]` (R52). -/
def State.addrPort (s : State) : Word := s.fault.addr

end Sys2Proof.Machine
end

