-- ==== Sys2Proof/Machine/Step.lean ====
section
/-! DEFINITION. One step of the machine, and the state in which a given word is the next one it runs. -/

namespace Sys2Proof.Machine

/-- One step: the next boundary event, or the CPU's step (40_cycle.md R91, 60_exceptions.md R165). -/
def step (s : State) : Host.Outcome State Fault Refusal := nextAction s

/-- `s` with the word `w` of an opcode-table row stored where `step` fetches its next instruction (log entry 10). -/
def State.withFetchWord (s : State) (nbits w : Nat) : State := s.withNextBytes (tableBytes nbits w)

end Sys2Proof.Machine
end

