-- ==== Sys2Proof/Safety.lean ====
section
/-! DEFINITION. What the statements say about runs: invariants, whose turn it is, and what a step leaves unchanged. -/

namespace Sys2Proof.Machine

/-! ## Invariants -/

/-- What holds in every state a run reaches. -/
structure State.Inv (s : State) : Prop where
  /-- Memory is in its canonical form: addresses below 4096, strictly rising, no idle entry (20_memory.md R53). -/
  memCanonical : s.mem.wf
  /-- The largest value `pc` can take is 0x10FE (10_state.md R28). -/
  pcBound : s.pc.toNat ≤ 0x10FE
  /-- Every stack slot holds 0 or an address after a CALL that was fetched, so at most 0x1000 (41_control_flow.md R105, R107). -/
  slotBound : ∀ k, 1 ≤ k → k ≤ 16 → (s.slot k).toNat ≤ 0x1000
  /-- The fault record names a cause exactly when the run has faulted (10_state.md R41, 60_exceptions.md R156). -/
  recordMatches : s.status = .faulted ↔ s.fault.cause ≠ .none

/-- While a load is still accepted, the core is as the reset left it (70_reset_and_hazards.md R172, R177). -/
def State.LoadWindow (s : State) : Prop := s.loadOpen = true → s.afterReset = s

/-! ## Whose turn it is -/

/-- The next action is the CPU's: no event is pending, or the first pending event grants it a step (40_cycle.md R91). -/
def CpuTurn (s : State) : Prop := s.pending = [] ∨ ∃ rest, s.pending = .step :: rest

/-- The state a CPU step works on: its grant is used up and no load is accepted any more. -/
def State.granted (s : State) : State := { s with pending := s.pending.tail, loadOpen := false }

/-! ## What is unchanged -/

/-- The kinds of state beside `pc` and the general registers. -/
inductive Part where
  | memory | index | stack | delay | sound | display | control | inputs | draws
  deriving DecidableEq, Repr

/-- The part is the same in both states; memory and display are compared byte by byte and pixel by pixel. `control` is the
status, the fault record and the key-wait state; `inputs` is what the host and the scheduler own. -/
def KeepsPart (s t : State) : Part → Prop
  | .memory => ∀ a, readByte t.mem a = readByte s.mem a
  | .index => t.i = s.i
  | .stack => t.sp = s.sp ∧ t.stack = s.stack
  | .delay => t.dt = s.dt
  | .sound => t.st = s.st
  | .display => ∀ x y, x < 64 → y < 32 → pixel t.fb x y = pixel s.fb x y
  | .control => t.status = s.status ∧ t.fault = s.fault ∧ t.waitReg = s.waitReg ∧ t.prevKeys = s.prevKeys
  | .inputs => t.keys = s.keys ∧ t.run = s.run ∧ t.loadOpen = s.loadOpen ∧ t.pending = s.pending
  | .draws => t.rnd = s.rnd ∧ t.draws = s.draws

/-- Every part but those listed is the same. -/
def KeepsAllBut (parts : List Part) (s t : State) : Prop := ∀ p, p ∉ parts → KeepsPart s t p

/-- Every general register but those listed is the same. -/
def KeepsRegsBut (regs : List Reg) (s t : State) : Prop := ∀ r, r ∉ regs → t.getV r = s.getV r

/-- Every byte of memory outside the `n` bytes from `a` reads as before. -/
def KeepsMemoryOutside (a n : Nat) (s t : State) : Prop :=
  ∀ b, b < a ∨ a + n ≤ b → readByte t.mem b = readByte s.mem b

/-- The state is the one before, but for a fault taken with this cause and word at its own `pc` (60_exceptions.md R156). -/
def FaultedAs (c : Cause) (w : Word) (s t : State) : Prop :=
  t = { s with status := .faulted, fault := { cause := c, word := w, addr := s.pc } }

/-! ## Which instructions write what (10_state.md R23, R25, R31, R33-R35; 20_memory.md R54) -/

/-- The instruction may write register `r` (R23, R25); `LD Vx,K` writes its register only later, in a poll. -/
def WritesReg (r : Reg) : Instr → Prop
  | .ldKk x _ | .addKk x _ | .ldXy x _ | .orXy x _ | .andXy x _ | .xorXy x _ | .rnd x _ | .ldVxDt x => r = x
  | .addXy x _ | .subXy x _ | .shr x _ | .subnXy x _ | .shl x _ => r = x ∨ r = VF
  | .drw _ _ _ => r = VF
  | .ldLoad x => r.toNat ≤ x.toNat
  | _ => False

/-- The parts an instruction that commits may write, by the rules cited above. -/
def writtenParts : Instr → List Part
  | .cls _ | .drw _ _ _ => [.display]
  | .ret _ | .call _ => [.stack]
  | .ldI _ | .addI _ | .ldF _ => [.index]
  | .ldB _ | .ldStore _ => [.memory]
  | .ldDtVx _ => [.delay]
  | .ldStVx _ => [.sound]
  | .ldVxK _ => [.control]
  | .rnd _ _ => [.draws]
  | _ => []

/-! ## Sprites (44_display.md R139) -/

/-- The sprite of `DRW Vx,Vy,n` in this state has a 1 bit on pixel (px, py): bit `7-c` of the byte at `I+r`, drawn at
column `(V[x] mod 64 + c) mod 64` and row `(V[y] mod 32 + r) mod 32`. -/
def SpriteSets (s : State) (x y : Reg) (n : Nibble) (px py : Nat) : Prop :=
  ∃ r c, r < n.toNat ∧ c < 8 ∧ (readByte s.mem (s.i.toNat + r)).getLsbD (7 - c) = true ∧
    px = ((s.getV x).toNat % 64 + c) % 64 ∧ py = ((s.getV y).toNat % 32 + r) % 32

end Sys2Proof.Machine
end

