-- ==== Sys2Proof/Certificates/Slice0/Obligations.lean ====
section
/-! DEFINITION. The statements for the provers. Each formalises the rules of spec/ its docstring names. -/

open Sys2Proof Sys2Proof.Machine

/-! ## Reset, invariants -/

/-- R46, R172: a reset gives every piece of core state its reset value, and leaves `KEYS` and `run` to the host. -/
def Obligations.ResetStrobeGivesResetValues : Prop :=
  ∀ (s : State) (rest : List Event), s.pending = .reset :: rest →
    ∃ t, step s = .next t ∧ (∀ r, t.getV r = 0) ∧ t.i = 0 ∧ t.pc = 0x0200 ∧ t.sp.val = 0 ∧
      (∀ k, 1 ≤ k → k ≤ 16 → t.slot k = 0) ∧ t.dt = 0 ∧ t.st = 0 ∧
      (∀ a, a < 80 → readByte t.mem a = Config.fontBytes.getD a 0) ∧
      (∀ a, 80 ≤ a → readByte t.mem a = 0) ∧
      (∀ x y, x < 64 → y < 32 → pixel t.fb x y = false) ∧
      t.status = .running ∧ t.fault = ⟨.none, 0, 0⟩ ∧ t.waitReg = 0 ∧ t.prevKeys = 0 ∧
      t.keys = s.keys ∧ t.run = s.run

/-- Both invariants hold right after reset. -/
def Obligations.ResetMeetsInvariants : Prop := State.reset.Inv ∧ State.reset.LoadWindow

/-- Every step, of the CPU, the timer engine or the host, keeps the canonical memory, the bound 0x10FE on `pc` (R28), the
bound on the stack slots, and the agreement of status and fault record (R41, R156). -/
def Obligations.StepKeepsInvariant : Prop := ∀ s t : State, s.Inv → step s = .next t → t.Inv

/-- Every step keeps it true that, while a load is still accepted, the core is as the reset left it (R172, R177). -/
def Obligations.StepKeepsLoadWindow : Prop := ∀ s t : State, s.LoadWindow → step s = .next t → t.LoadWindow

/-! ## Encoding -/

/-- Decoding an encoded instruction gives it back, as a word and at the front of any bytes (R73, R84). -/
def Obligations.DecodeOfEncodeIsIdentity : Prop :=
  ∀ (i : Instr) (rest : List Byte),
    decodeWord (encode i) = .ok i ∧ decode (encodeBytes i ++ rest) = .ok (i, rest)

/-- Encoding a decoded instruction gives the word back: no bit of a valid word is lost (R84). -/
def Obligations.EncodeOfDecodeIsIdentity : Prop :=
  ∀ (w : Word) (i : Instr), decodeWord w = .ok i → encode i = w

/-- The INVALID words are those of the four sets of R86 (its counts apart). -/
def Obligations.InvalidWordsAreTheFourSets : Prop :=
  ∀ w : Word, decodeWord w = .error (.invalidOpcode w) ↔
    (w.toNat / 4096 = 0x0 ∧ w.toNat % 256 ∉ [0xE0, 0xEE]) ∨
    (w.toNat / 4096 = 0x8 ∧ w.toNat % 16 ∈ [0x8, 0x9, 0xA, 0xB, 0xC, 0xD, 0xF]) ∨
    (w.toNat / 4096 = 0xE ∧ w.toNat % 256 ∉ [0x9E, 0xA1]) ∨
    (w.toNat / 4096 = 0xF ∧ w.toNat % 256 ∉ [0x07, 0x0A, 0x15, 0x18, 0x1E, 0x29, 0x33, 0x55, 0x65])

/-- A word decodes exactly when a row of the opcode map has it, and then to an instruction of that row and no other
(R83, its counts apart). -/
def Obligations.DecodeAgreesWithOpcodeMap : Prop :=
  ∀ w : Word, ((∃ i, decodeWord w = .ok i) ↔ ∃ r ∈ opcodeMap, r.hasWord w = true) ∧
    ∀ i, decodeWord w = .ok i → ∀ r ∈ opcodeMap, r.hasWord w = true ↔ r = i.row

/-- Words of the source's scenario and of 95_test_vectors.md 2.1 decode as written there (R76-R78, R82, R85). -/
def Obligations.WrittenOutWordsDecode : Prop :=
  decodeWord 0x6005 = .ok (.ldKk 0 0x05) ∧ decodeWord 0x6108 = .ok (.ldKk 1 0x08) ∧
  decodeWord 0x8014 = .ok (.addXy 0 1) ∧ decodeWord 0x00E0 = .ok (.cls 0) ∧ decodeWord 0x01E0 = .ok (.cls 1) ∧
  decodeWord 0x5121 = .ok (.seXy 1 2 1) ∧ decodeWord 0x8126 = .ok (.shr 1 2) ∧ decodeWord 0xE09E = .ok (.skp 0) ∧
  decodeWord 0xFF65 = .ok (.ldLoad 15) ∧ decodeWord 0x0123 = .error (.invalidOpcode 0x0123) ∧
  decodeWord 0x800F = .error (.invalidOpcode 0x800F) ∧ decodeWord 0xF11F = .error (.invalidOpcode 0xF11F)

/-- The assembly line of an instruction is well-formed, assembles to the instruction with its ignored bits 0, and is read
back from its own text (R89, R90; the text's form is the model's choice, log entry 12). -/
def Obligations.AssemblyRoundTrips : Prop :=
  ∀ i : Instr, i.toAsm.wellFormed = true ∧ i.toAsm.assemble = some i.clearIgnored ∧
    readLine i.toAsm.text = some i.toAsm

/-! ## The CPU step -/

/-- R93-R96: the two bytes at `pc`, the lower one first, are decoded, and the instruction is executed; all the step adds is
that its grant is used up and the load window closes. -/
def Obligations.StepRunsDecodedInstruction : Prop :=
  ∀ (s : State) (i : Instr), CpuTurn s → s.status = .running → s.run = true →
    0x200 ≤ s.pc.toNat → s.pc.toNat ≤ 0xFFE →
    decodeWord (readByte s.mem s.pc.toNat ++ readByte s.mem (s.pc.toNat + 1)) = .ok i →
    step s = exec i s.granted

/-- R92, R154: an instruction step with `pc` outside 0x200..0xFFE raises FETCH_RANGE with word 0 and address `pc`. -/
def Obligations.FetchOutsideWindowFaults : Prop :=
  ∀ s : State, CpuTurn s → s.status = .running → s.run = true → (s.pc.toNat < 0x200 ∨ 0xFFE < s.pc.toNat) →
    ∃ t, step s = .next t ∧ FaultedAs .fetchRange 0x0000 s.granted t

/-- R87, R150: an INVALID word is not skipped; it raises INVALID_OPCODE with the word and the address it was fetched from. -/
def Obligations.InvalidWordFaults : Prop :=
  ∀ s : State, CpuTurn s → s.status = .running → s.run = true → 0x200 ≤ s.pc.toNat → s.pc.toNat ≤ 0xFFE →
    (∀ i, decodeWord (readWord s.mem s.pc.toNat) ≠ .ok i) →
    ∃ t, step s = .next t ∧ FaultedAs .invalidOpcode (readWord s.mem s.pc.toNat) s.granted t

/-- R101: with `run = 0` the CPU's step stops the run and changes nothing else; a pending wait writes no register. -/
def Obligations.ClearedRunFlagStops : Prop :=
  ∀ s : State, CpuTurn s → s.run = false → (s.status = .running ∨ s.status = .waitingKey) →
    step s = .next { s.granted with status := .stopped }

/-- R99, R100: a poll ends the wait with the lowest key that is 1 now and was 0 at the last sample, or takes a new sample;
`pc` stays. -/
def Obligations.PollTakesLowestFreshKey : Prop :=
  ∀ s : State, CpuTurn s → s.status = .waitingKey → s.run = true →
    (∀ k, k < 16 → s.keys.getLsbD k = true → s.prevKeys.getLsbD k = false →
      (∀ j, j < k → ¬(s.keys.getLsbD j = true ∧ s.prevKeys.getLsbD j = false)) →
      ∃ t, step s = .next t ∧ (t.getV s.waitReg).toNat = k ∧ t.status = .running ∧
        KeepsRegsBut [s.waitReg] s.granted t ∧ t = { s.granted with v := t.v, status := .running }) ∧
    ((∀ k, k < 16 → ¬(s.keys.getLsbD k = true ∧ s.prevKeys.getLsbD k = false)) →
      step s = .next { s.granted with prevKeys := s.keys })

/-- R40, R103, R163: once the run has ended the CPU has no step, a granted step is ignored, and a tick changes nothing.
(That the model stops when nothing is pending is log entry 5.) -/
def Obligations.EndedRunTakesNoStep : Prop :=
  ∀ s : State, (s.status = .stopped ∨ s.status = .faulted) →
    (s.pending = [] → step s = .fault (if s.status = .stopped then .runStopped else .runFaulted)) ∧
    (∀ rest, s.pending = .step :: rest → step s = .next { s with pending := rest }) ∧
    (∀ rest, s.pending = .tick :: rest → step s = .next { s with pending := rest })

/-- R40, R172: only a reset changes the status of a run that has ended. -/
def Obligations.OnlyResetLeavesAnEndedRun : Prop :=
  ∀ s t : State, s.LoadWindow → (s.status = .stopped ∨ s.status = .faulted) → step s = .next t →
    t.status = s.status ∨ ∃ rest, s.pending = .reset :: rest

/-- R103: while the run has not ended, a CPU step always answers a next state, whatever the memory holds; it never fails
and is never refused. -/
def Obligations.LiveCpuStepAnswersNext : Prop :=
  ∀ s : State, CpuTurn s → (s.status = .running ∨ s.status = .waitingKey) →
    ∃ t, step s = .next t ∧ t.loadOpen = false ∧ t.pending = s.pending.tail

/-- R97, R150-R154, R156: a CPU step that ends FAULTED has changed nothing but the status and the record, which names a
cause, the word fetched (0 for FETCH_RANGE) and the instruction's address. -/
def Obligations.FaultingStepIsPrecise : Prop :=
  ∀ s t : State, CpuTurn s → s.status = .running → step s = .next t → t.status = .faulted →
    ∃ c, c ≠ .none ∧ c ≠ .loadOverflow ∧
      FaultedAs c (if c = .fetchRange then 0x0000 else readWord s.mem s.pc.toNat) s.granted t

/-- R157: which cause a faulting CPU step records, in order: the fetch check, the decode, the instruction's own check. -/
def Obligations.FaultCausesFollowPriority : Prop :=
  ∀ s t : State, CpuTurn s → s.status = .running → step s = .next t → t.status = .faulted →
    (t.fault.cause = .fetchRange ↔ ¬(0x200 ≤ s.pc.toNat ∧ s.pc.toNat ≤ 0xFFE)) ∧
    (t.fault.cause = .invalidOpcode ↔ (0x200 ≤ s.pc.toNat ∧ s.pc.toNat ≤ 0xFFE) ∧
      ∀ i, decodeWord (readWord s.mem s.pc.toNat) ≠ .ok i) ∧
    (t.fault.cause = .stackOverflow → s.sp.val = 16 ∧ ∃ nnn, decodeWord (readWord s.mem s.pc.toNat) = .ok (.call nnn)) ∧
    (t.fault.cause = .stackUnderflow → s.sp.val = 0 ∧ ∃ z, decodeWord (readWord s.mem s.pc.toNat) = .ok (.ret z)) ∧
    (t.fault.cause = .addressRange → ∃ i, decodeWord (readWord s.mem s.pc.toNat) = .ok i ∧
      ((∃ x y n, i = .drw x y n) ∨ (∃ x, i = .ldB x) ∨ (∃ x, i = .ldStore x) ∨ ∃ x, i = .ldLoad x))

/-- R36, R43, R72: no CPU step changes the host's key mask or run flag, or an event still to come. -/
def Obligations.CpuStepLeavesHostInputs : Prop :=
  ∀ s t : State, CpuTurn s → step s = .next t →
    t.keys = s.keys ∧ t.run = s.run ∧ t.pending = s.pending.tail

/-! ## The timer engine and the load port -/

/-- R163: a tick takes 1 from each timer that is above 0 while the run has not ended, and touches nothing else. -/
def Obligations.TickCountsBothTimersDown : Prop :=
  ∀ (s : State) (rest : List Event), s.pending = .tick :: rest →
    ∃ t, step s = .next t ∧ t = { s with pending := rest, dt := t.dt, st := t.st } ∧
      ((s.status = .running ∨ s.status = .waitingKey) →
        t.dt.toNat = s.dt.toNat - 1 ∧ t.st.toNat = s.st.toNat - 1) ∧
      ((s.status = .stopped ∨ s.status = .faulted) → t.dt = s.dt ∧ t.st = s.st)

/-- R175: a load copies the image to 0x200 verbatim and changes nothing else of the core. That it closes the load window is
the model's inference from R177 (log entry 4). -/
def Obligations.LoadCopiesImageVerbatim : Prop :=
  ∀ (s : State) (image : List Byte) (rest : List Event), s.pending = .load image :: rest → s.loadOpen = true →
    image.length ≤ 3584 →
    ∃ t, step s = .next t ∧ (∀ k, k < image.length → readByte t.mem (0x200 + k) = image.getD k 0) ∧
      KeepsMemoryOutside 0x200 image.length s t ∧ t = { s with pending := rest, loadOpen := false, mem := t.mem }

/-- R155, R176: a load of more than 3584 bytes writes no byte and faults with LOAD_OVERFLOW, word 0 and address 0x200. That
it closes the load window is the model's inference from R177 (log entry 4). -/
def Obligations.OversizedLoadFaults : Prop :=
  ∀ (s : State) (image : List Byte) (rest : List Event), s.pending = .load image :: rest → s.loadOpen = true →
    3584 < image.length →
    step s = .next { s with pending := rest, loadOpen := false, status := .faulted,
                            fault := ⟨.loadOverflow, 0x0000, 0x0200⟩ }

/-- R177: a load is refused once the load window is closed, and a CPU step closes the window. That an accepted load, of any
size, closes it too ("at most one load") is the model's inference from R177 (log entry 4). -/
def Obligations.LateLoadIsRefused : Prop :=
  (∀ (s : State) (image : List Byte) (rest : List Event), s.pending = .load image :: rest → s.loadOpen = true →
    ∃ t, step s = .next t ∧ t.loadOpen = false) ∧
  (∀ (s : State) (image : List Byte) (rest : List Event), s.pending = .load image :: rest → s.loadOpen = false →
    step s = .refused .loadOutOfOrder) ∧
  ∀ s t : State, CpuTurn s → (s.status = .running ∨ s.status = .waitingKey) → step s = .next t → t.loadOpen = false

/-! ## Control transfer (41_control_flow.md) -/

/-- R106 JP nnn: `pc` becomes the 12-bit address, and nothing else changes. -/
def Obligations.JumpSetsPc : Prop :=
  ∀ (s : State) (nnn : Addr12), decodeWord (0x1#4 ++ nnn) = .ok (.jp nnn) ∧
    ∃ t, exec (.jp nnn) s = .next t ∧ t.pc.toNat = nnn.toNat ∧ KeepsRegsBut [] s t ∧ KeepsAllBut [] s t

/-- R107 CALL nnn, R151: with `sp < 16` the address after the CALL goes to slot `sp+1`; with `sp = 16` it raises
STACK_OVERFLOW and writes nothing. -/
def Obligations.CallPushesReturnAddress : Prop :=
  ∀ (s : State) (nnn : Addr12), decodeWord (0x2#4 ++ nnn) = .ok (.call nnn) ∧
    (s.sp.val < 16 → ∃ t, exec (.call nnn) s = .next t ∧ t.pc.toNat = nnn.toNat ∧ t.sp.val = s.sp.val + 1 ∧
      t.slot (s.sp.val + 1) = s.pc + 2 ∧ (∀ k, 1 ≤ k → k ≤ 16 → k ≠ s.sp.val + 1 → t.slot k = s.slot k) ∧
      KeepsRegsBut [] s t ∧ KeepsAllBut [.stack] s t) ∧
    (s.sp.val = 16 → ∃ t, exec (.call nnn) s = .next t ∧ FaultedAs .stackOverflow (0x2#4 ++ nnn) s t)

/-- R105 RET, R152: with `sp >= 1` the top slot goes to `pc` and keeps its value; with `sp = 0` it raises STACK_UNDERFLOW. -/
def Obligations.ReturnPopsAddress : Prop :=
  ∀ (s : State) (z : Nibble), decodeWord (0x0#4 ++ z ++ 0xEE#8) = .ok (.ret z) ∧
    (1 ≤ s.sp.val → ∃ t, exec (.ret z) s = .next t ∧ t.pc = s.slot s.sp.val ∧ t.sp.val = s.sp.val - 1 ∧
      t.stack = s.stack ∧ KeepsRegsBut [] s t ∧ KeepsAllBut [.stack] s t) ∧
    (s.sp.val = 0 → ∃ t, exec (.ret z) s = .next t ∧ FaultedAs .stackUnderflow (0x0#4 ++ z ++ 0xEE#8) s t)

/-- R105, R107: a RET after a CALL resumes at the instruction after the CALL, with the stack pointer as before it. -/
def Obligations.CallThenReturnResumes : Prop :=
  ∀ (s : State) (nnn : Addr12) (z : Nibble), s.sp.val < 16 →
    ∃ t u, exec (.call nnn) s = .next t ∧ exec (.ret z) t = .next u ∧ u.pc = s.pc + 2 ∧ u.sp = s.sp ∧
      KeepsRegsBut [] s u ∧ KeepsAllBut [.stack] s u

/-- R108, R109 SE and SNE Vx,kk: `pc` goes 4 on when the condition holds, else 2, and nothing else changes. -/
def Obligations.SkipsOnImmediate : Prop :=
  ∀ (s : State) (x : Reg) (kk : Byte),
    decodeWord (0x3#4 ++ x ++ kk) = .ok (.seKk x kk) ∧ decodeWord (0x4#4 ++ x ++ kk) = .ok (.sneKk x kk) ∧
    (∃ t, exec (.seKk x kk) s = .next t ∧ t.pc = (if s.getV x = kk then s.pc + 4 else s.pc + 2) ∧
      KeepsRegsBut [] s t ∧ KeepsAllBut [] s t) ∧
    (∃ t, exec (.sneKk x kk) s = .next t ∧ t.pc = (if s.getV x ≠ kk then s.pc + 4 else s.pc + 2) ∧
      KeepsRegsBut [] s t ∧ KeepsAllBut [] s t)

/-- R110, R111 SE and SNE Vx,Vy, whatever the ignored bits are. -/
def Obligations.SkipsOnRegisters : Prop :=
  ∀ (s : State) (x y : Reg) (z : Nibble),
    decodeWord (0x5#4 ++ x ++ y ++ z) = .ok (.seXy x y z) ∧ decodeWord (0x9#4 ++ x ++ y ++ z) = .ok (.sneXy x y z) ∧
    (∃ t, exec (.seXy x y z) s = .next t ∧ t.pc = (if s.getV x = s.getV y then s.pc + 4 else s.pc + 2) ∧
      KeepsRegsBut [] s t ∧ KeepsAllBut [] s t) ∧
    (∃ t, exec (.sneXy x y z) s = .next t ∧ t.pc = (if s.getV x ≠ s.getV y then s.pc + 4 else s.pc + 2) ∧
      KeepsRegsBut [] s t ∧ KeepsAllBut [] s t)

/-- R112 JP V0,nnn: the exact sum of the address and V0, not masked. -/
def Obligations.IndexedJumpAddsV0 : Prop :=
  ∀ (s : State) (nnn : Addr12), decodeWord (0xB#4 ++ nnn) = .ok (.jpV0 nnn) ∧
    ∃ t, exec (.jpV0 nnn) s = .next t ∧ t.pc.toNat = nnn.toNat + (s.getV 0).toNat ∧
      KeepsRegsBut [] s t ∧ KeepsAllBut [] s t

/-! ## Register and ALU instructions (42_alu.md) -/

/-- R116 LD Vx,kk. -/
def Obligations.LoadImmediateSetsRegister : Prop :=
  ∀ (s : State) (x : Reg) (kk : Byte), decodeWord (0x6#4 ++ x ++ kk) = .ok (.ldKk x kk) ∧
    ∃ t, exec (.ldKk x kk) s = .next t ∧ t.getV x = kk ∧ t.pc = s.pc + 2 ∧ KeepsRegsBut [x] s t ∧ KeepsAllBut [] s t

/-- R117 ADD Vx,kk: modulo 256, and no flag. -/
def Obligations.AddImmediateWrapsWithoutFlag : Prop :=
  ∀ (s : State) (x : Reg) (kk : Byte), decodeWord (0x7#4 ++ x ++ kk) = .ok (.addKk x kk) ∧
    ∃ t, exec (.addKk x kk) s = .next t ∧ (t.getV x).toNat = ((s.getV x).toNat + kk.toNat) % 256 ∧
      t.pc = s.pc + 2 ∧ KeepsRegsBut [x] s t ∧ KeepsAllBut [] s t

/-- R118-R121 LD, OR, AND and XOR Vx,Vy: bit by bit, and no flag. -/
def Obligations.CopyAndLogicSetRegister : Prop :=
  ∀ (s : State) (x y : Reg),
    decodeWord (0x8#4 ++ x ++ y ++ 0x0#4) = .ok (.ldXy x y) ∧ decodeWord (0x8#4 ++ x ++ y ++ 0x1#4) = .ok (.orXy x y) ∧
    decodeWord (0x8#4 ++ x ++ y ++ 0x2#4) = .ok (.andXy x y) ∧ decodeWord (0x8#4 ++ x ++ y ++ 0x3#4) = .ok (.xorXy x y) ∧
    ∀ (i : Instr) (f : Bool → Bool → Bool),
      (i = .ldXy x y ∧ f = (fun _ b => b)) ∨ (i = .orXy x y ∧ f = (fun a b => a || b)) ∨
      (i = .andXy x y ∧ f = (fun a b => a && b)) ∨ (i = .xorXy x y ∧ f = (fun a b => a != b)) →
      ∃ t, exec i s = .next t ∧
        (∀ k, k < 8 → (t.getV x).getLsbD k = f ((s.getV x).getLsbD k) ((s.getV y).getLsbD k)) ∧
        t.pc = s.pc + 2 ∧ KeepsRegsBut [x] s t ∧ KeepsAllBut [] s t

/-- R122 ADD Vx,Vy: the sum modulo 256, and VF the carry of the true sum; the carry stands when `x` is F. -/
def Obligations.AddRegistersSetsCarry : Prop :=
  ∀ (s : State) (x y : Reg), decodeWord (0x8#4 ++ x ++ y ++ 0x4#4) = .ok (.addXy x y) ∧
    ∃ t, exec (.addXy x y) s = .next t ∧
      (x ≠ VF → (t.getV x).toNat = ((s.getV x).toNat + (s.getV y).toNat) % 256) ∧
      t.getV VF = (if (s.getV x).toNat + (s.getV y).toNat > 255 then 1 else 0) ∧
      t.pc = s.pc + 2 ∧ KeepsRegsBut [x, VF] s t ∧ KeepsAllBut [] s t

/-- R123, R125 SUB and SUBN Vx,Vy: the difference modulo 256, and VF no borrow; the difference stands when `x` is F. -/
def Obligations.SubtractSetsNoBorrow : Prop :=
  ∀ (s : State) (x y : Reg),
    decodeWord (0x8#4 ++ x ++ y ++ 0x5#4) = .ok (.subXy x y) ∧
    decodeWord (0x8#4 ++ x ++ y ++ 0x7#4) = .ok (.subnXy x y) ∧
    (∃ t, exec (.subXy x y) s = .next t ∧
      (t.getV x).toNat = ((s.getV x).toNat + 256 - (s.getV y).toNat) % 256 ∧
      (x ≠ VF → t.getV VF = (if (s.getV x).toNat ≥ (s.getV y).toNat then 1 else 0)) ∧
      t.pc = s.pc + 2 ∧ KeepsRegsBut [x, VF] s t ∧ KeepsAllBut [] s t) ∧
    (∃ t, exec (.subnXy x y) s = .next t ∧
      (t.getV x).toNat = ((s.getV y).toNat + 256 - (s.getV x).toNat) % 256 ∧
      (x ≠ VF → t.getV VF = (if (s.getV y).toNat ≥ (s.getV x).toNat then 1 else 0)) ∧
      t.pc = s.pc + 2 ∧ KeepsRegsBut [x, VF] s t ∧ KeepsAllBut [] s t)

/-- R124, R126 SHR and SHL Vx, whatever the ignored bits are: VF is the bit shifted out, from before the shift. -/
def Obligations.ShiftsCaptureTheBitShiftedOut : Prop :=
  ∀ (s : State) (x : Reg) (z : Nibble),
    decodeWord (0x8#4 ++ x ++ z ++ 0x6#4) = .ok (.shr x z) ∧ decodeWord (0x8#4 ++ x ++ z ++ 0xE#4) = .ok (.shl x z) ∧
    (∃ t, exec (.shr x z) s = .next t ∧ (t.getV x).toNat = (s.getV x).toNat / 2 ∧
      (x ≠ VF → (t.getV VF).toNat = (s.getV x).toNat % 2) ∧
      t.pc = s.pc + 2 ∧ KeepsRegsBut [x, VF] s t ∧ KeepsAllBut [] s t) ∧
    (∃ t, exec (.shl x z) s = .next t ∧ (t.getV x).toNat = (s.getV x).toNat * 2 % 256 ∧
      (x ≠ VF → (t.getV VF).toNat = (s.getV x).toNat / 128) ∧
      t.pc = s.pc + 2 ∧ KeepsRegsBut [x, VF] s t ∧ KeepsAllBut [] s t)

/-- R115: VF as the destination of the five flag-writing instructions, and VF as `Vy` read before any write. -/
def Obligations.FlagRegisterAsDestination : Prop :=
  ∀ (s : State) (y : Reg) (z : Nibble),
    (∃ t, exec (.addXy VF y) s = .next t ∧
      t.getV VF = (if (s.getV VF).toNat + (s.getV y).toNat > 255 then 1 else 0)) ∧
    (∃ t, exec (.subXy VF y) s = .next t ∧
      (t.getV VF).toNat = ((s.getV VF).toNat + 256 - (s.getV y).toNat) % 256) ∧
    (∃ t, exec (.shr VF z) s = .next t ∧ (t.getV VF).toNat = (s.getV VF).toNat / 2) ∧
    (∃ t, exec (.subnXy VF y) s = .next t ∧
      (t.getV VF).toNat = ((s.getV y).toNat + 256 - (s.getV VF).toNat) % 256) ∧
    (∃ t, exec (.shl VF z) s = .next t ∧ (t.getV VF).toNat = (s.getV VF).toNat * 2 % 256) ∧
    (y ≠ VF →
      (∃ t, exec (.addXy y VF) s = .next t ∧ (t.getV y).toNat = ((s.getV y).toNat + (s.getV VF).toNat) % 256) ∧
      (∃ t, exec (.subXy y VF) s = .next t ∧ (t.getV y).toNat = ((s.getV y).toNat + 256 - (s.getV VF).toNat) % 256) ∧
      ∃ t, exec (.subnXy y VF) s = .next t ∧ (t.getV y).toNat = ((s.getV VF).toNat + 256 - (s.getV y).toNat) % 256)

/-- R127 RND Vx,kk: exactly one draw is consumed, the host's next byte if it has queued one and else any byte (R51), and
`Vx` becomes it masked by `kk`. The queue and the count of draws are the model's form of the port (log entry 3). -/
def Obligations.RandomByteIsMasked : Prop :=
  ∀ (s : State) (x : Reg) (kk : Byte), decodeWord (0xC#4 ++ x ++ kk) = .ok (.rnd x kk) ∧
    ∃ t r, exec (.rnd x kk) s = .next t ∧ t.getV x = r &&& kk ∧
      (∀ b rest, s.rnd = b :: rest → r = b ∧ t.rnd = rest) ∧ (s.rnd = [] → t.rnd = []) ∧ t.draws = s.draws + 1 ∧
      t.pc = s.pc + 2 ∧ KeepsRegsBut [x] s t ∧ KeepsAllBut [.draws] s t

/-! ## Index register and memory instructions (43_index_memory.md) -/

/-- R129 LD I,nnn. -/
def Obligations.LoadIndexSetsI : Prop :=
  ∀ (s : State) (nnn : Addr12), decodeWord (0xA#4 ++ nnn) = .ok (.ldI nnn) ∧
    ∃ t, exec (.ldI nnn) s = .next t ∧ t.i.toNat = nnn.toNat ∧ t.pc = s.pc + 2 ∧ KeepsRegsBut [] s t ∧
      KeepsAllBut [.index] s t

/-- R130 ADD I,Vx: modulo 2^16, and no flag. -/
def Obligations.AddIndexWrapsWithoutFlag : Prop :=
  ∀ (s : State) (x : Reg), decodeWord (0xF#4 ++ x ++ 0x1E#8) = .ok (.addI x) ∧
    ∃ t, exec (.addI x) s = .next t ∧ t.i.toNat = (s.i.toNat + (s.getV x).toNat) % 65536 ∧ t.pc = s.pc + 2 ∧
      KeepsRegsBut [] s t ∧ KeepsAllBut [.index] s t

/-- R132 LD F,Vx: `I` points at the glyph of the low nibble's digit, with FONT_BASE 0 and five bytes a glyph (R6). -/
def Obligations.FontAddressOfDigit : Prop :=
  ∀ (s : State) (x : Reg), decodeWord (0xF#4 ++ x ++ 0x29#8) = .ok (.ldF x) ∧
    ∃ t, exec (.ldF x) s = .next t ∧ t.i.toNat = 5 * ((s.getV x).toNat % 16) ∧ t.pc = s.pc + 2 ∧
      KeepsRegsBut [] s t ∧ KeepsAllBut [.index] s t

/-- R133 LD B,Vx: hundreds, tens and units at `I`, `I+1`, `I+2`, every other byte as before; past 0xFFF it raises
ADDRESS_RANGE and writes nothing. -/
def Obligations.BcdStoresDecimalDigits : Prop :=
  ∀ (s : State) (x : Reg), decodeWord (0xF#4 ++ x ++ 0x33#8) = .ok (.ldB x) ∧
    (s.i.toNat + 2 ≤ 0xFFF → ∃ t, exec (.ldB x) s = .next t ∧
      (readByte t.mem s.i.toNat).toNat = (s.getV x).toNat / 100 ∧
      (readByte t.mem (s.i.toNat + 1)).toNat = (s.getV x).toNat / 10 % 10 ∧
      (readByte t.mem (s.i.toNat + 2)).toNat = (s.getV x).toNat % 10 ∧
      KeepsMemoryOutside s.i.toNat 3 s t ∧ t.pc = s.pc + 2 ∧ KeepsRegsBut [] s t ∧ KeepsAllBut [.memory] s t) ∧
    (s.i.toNat + 2 > 0xFFF → ∃ t, exec (.ldB x) s = .next t ∧ FaultedAs .addressRange (0xF#4 ++ x ++ 0x33#8) s t)

/-- R134 LD [I],Vx: V0..Vx to `I`..`I+x`, every other byte as before, `I` unchanged; past 0xFFF it raises ADDRESS_RANGE
and writes nothing. -/
def Obligations.BlockStoreWritesRegisters : Prop :=
  ∀ (s : State) (x : Reg), decodeWord (0xF#4 ++ x ++ 0x55#8) = .ok (.ldStore x) ∧
    (s.i.toNat + x.toNat ≤ 0xFFF → ∃ t, exec (.ldStore x) s = .next t ∧
      (∀ r : Reg, r.toNat ≤ x.toNat → readByte t.mem (s.i.toNat + r.toNat) = s.getV r) ∧
      KeepsMemoryOutside s.i.toNat (x.toNat + 1) s t ∧ t.pc = s.pc + 2 ∧ KeepsRegsBut [] s t ∧
      KeepsAllBut [.memory] s t) ∧
    (s.i.toNat + x.toNat > 0xFFF → ∃ t, exec (.ldStore x) s = .next t ∧
      FaultedAs .addressRange (0xF#4 ++ x ++ 0x55#8) s t)

/-- R135 LD Vx,[I]: `I`..`I+x` to V0..Vx, every other register as before, `I` unchanged; past 0xFFF it raises
ADDRESS_RANGE and writes no register. -/
def Obligations.BlockLoadReadsRegisters : Prop :=
  ∀ (s : State) (x : Reg), decodeWord (0xF#4 ++ x ++ 0x65#8) = .ok (.ldLoad x) ∧
    (s.i.toNat + x.toNat ≤ 0xFFF → ∃ t, exec (.ldLoad x) s = .next t ∧
      (∀ r : Reg, t.getV r = if r.toNat ≤ x.toNat then readByte s.mem (s.i.toNat + r.toNat) else s.getV r) ∧
      t.pc = s.pc + 2 ∧ KeepsAllBut [] s t) ∧
    (s.i.toNat + x.toNat > 0xFFF → ∃ t, exec (.ldLoad x) s = .next t ∧
      FaultedAs .addressRange (0xF#4 ++ x ++ 0x65#8) s t)

/-! ## Display instructions (44_display.md) -/

/-- R138 CLS: every pixel 0, VF and everything else unchanged; what was on the screen before makes no difference, so a draw
after CLS is a draw on a fresh framebuffer. -/
def Obligations.ClearScreenClearsEveryPixel : Prop :=
  ∀ (s : State) (z : Nibble), decodeWord (0x0#4 ++ z ++ 0xE0#8) = .ok (.cls z) ∧
    ∃ t, exec (.cls z) s = .next t ∧ (∀ px py, px < 64 → py < 32 → pixel t.fb px py = false) ∧ t.pc = s.pc + 2 ∧
      KeepsRegsBut [] s t ∧ KeepsAllBut [.display] s t ∧ ∀ f, exec (.cls z) (s.setFb f) = .next t

/-- R139 DRW Vx,Vy,n: a pixel is flipped exactly when the sprite has a 1 bit on it, and VF is 1 exactly when a set pixel was
flipped, also with `n = 0` and with `x` or `y` F; past 0xFFF it raises ADDRESS_RANGE and draws nothing. -/
def Obligations.DrawFlipsSpritePixels : Prop :=
  ∀ (s : State) (x y : Reg) (n : Nibble), decodeWord (0xD#4 ++ x ++ y ++ n) = .ok (.drw x y n) ∧
    (n.toNat = 0 ∨ s.i.toNat + n.toNat - 1 ≤ 0xFFF → ∃ t, exec (.drw x y n) s = .next t ∧
      (∀ px py, px < 64 → py < 32 →
        (SpriteSets s x y n px py → pixel t.fb px py = !pixel s.fb px py) ∧
        (¬SpriteSets s x y n px py → pixel t.fb px py = pixel s.fb px py)) ∧
      ((∃ px py, SpriteSets s x y n px py ∧ pixel s.fb px py = true) → t.getV VF = 1) ∧
      ((∀ px py, SpriteSets s x y n px py → pixel s.fb px py = false) → t.getV VF = 0) ∧
      t.pc = s.pc + 2 ∧ KeepsRegsBut [VF] s t ∧ KeepsAllBut [.display] s t) ∧
    (1 ≤ n.toNat ∧ s.i.toNat + n.toNat - 1 > 0xFFF → ∃ t, exec (.drw x y n) s = .next t ∧
      FaultedAs .addressRange (0xD#4 ++ x ++ y ++ n) s t)

/-- R139: drawing the same sprite twice at the same place restores every pixel. The place is the same whenever `x` and `y`
are not F; when one is, the second draw takes its coordinate from the VF the first one wrote, and the place is the same if
that is the same coordinate. The clause on the second VF (1 exactly when the sprite hits a pixel that was 0 before the first
draw) is the model's choice, log entry 13: it follows R139's pseudocode, where a sentence of R139 says that the second draw
sets VF = 1 "exactly when the sprite has at least one set bit". -/
def Obligations.DrawingTwiceRestoresPixels : Prop :=
  ∀ (s : State) (x y : Reg) (n : Nibble), (n.toNat = 0 ∨ s.i.toNat + n.toNat - 1 ≤ 0xFFF) →
    ∃ t u, exec (.drw x y n) s = .next t ∧ exec (.drw x y n) t = .next u ∧
      (x ≠ VF → t.getV x = s.getV x) ∧ (y ≠ VF → t.getV y = s.getV y) ∧
      ((t.getV x).toNat % 64 = (s.getV x).toNat % 64 → (t.getV y).toNat % 32 = (s.getV y).toNat % 32 →
        (∀ px py, px < 64 → py < 32 → pixel u.fb px py = pixel s.fb px py) ∧
        (u.getV VF = 1 ↔ ∃ px py, SpriteSets s x y n px py ∧ pixel s.fb px py = false))

/-! ## Key and timer instructions (45_input_timer.md) -/

/-- R141-R143 SKP and SKNP Vx: skip when key `V[x] mod 16` is, or is not, pressed. -/
def Obligations.KeySkipsTestTheMask : Prop :=
  ∀ (s : State) (x : Reg),
    decodeWord (0xE#4 ++ x ++ 0x9E#8) = .ok (.skp x) ∧ decodeWord (0xE#4 ++ x ++ 0xA1#8) = .ok (.sknp x) ∧
    (∃ t, exec (.skp x) s = .next t ∧
      t.pc = (if s.keys.getLsbD ((s.getV x).toNat % 16) = true then s.pc + 4 else s.pc + 2) ∧
      KeepsRegsBut [] s t ∧ KeepsAllBut [] s t) ∧
    (∃ t, exec (.sknp x) s = .next t ∧
      t.pc = (if s.keys.getLsbD ((s.getV x).toNat % 16) = false then s.pc + 4 else s.pc + 2) ∧
      KeepsRegsBut [] s t ∧ KeepsAllBut [] s t)

/-- R144 LD Vx,DT. -/
def Obligations.DelayTimerIsRead : Prop :=
  ∀ (s : State) (x : Reg), decodeWord (0xF#4 ++ x ++ 0x07#8) = .ok (.ldVxDt x) ∧
    ∃ t, exec (.ldVxDt x) s = .next t ∧ t.getV x = s.dt ∧ t.pc = s.pc + 2 ∧ KeepsRegsBut [x] s t ∧ KeepsAllBut [] s t

/-- R145 LD Vx,K: the wait is entered with the register and a snapshot of the keys; no register is written yet. -/
def Obligations.KeyWaitIsEntered : Prop :=
  ∀ (s : State) (x : Reg), decodeWord (0xF#4 ++ x ++ 0x0A#8) = .ok (.ldVxK x) ∧
    ∃ t, exec (.ldVxK x) s = .next t ∧ t.status = .waitingKey ∧ t.waitReg = x ∧ t.prevKeys = s.keys ∧
      t.fault = s.fault ∧ t.pc = s.pc + 2 ∧ KeepsRegsBut [] s t ∧ KeepsAllBut [.control] s t

/-- R146, R147 LD DT,Vx and LD ST,Vx, and the tone they give (R50). -/
def Obligations.TimersAreSet : Prop :=
  ∀ (s : State) (x : Reg),
    decodeWord (0xF#4 ++ x ++ 0x15#8) = .ok (.ldDtVx x) ∧ decodeWord (0xF#4 ++ x ++ 0x18#8) = .ok (.ldStVx x) ∧
    (∃ t, exec (.ldDtVx x) s = .next t ∧ t.dt = s.getV x ∧ t.pc = s.pc + 2 ∧ KeepsRegsBut [] s t ∧
      KeepsAllBut [.delay] s t) ∧
    (∃ t, exec (.ldStVx x) s = .next t ∧ t.st = s.getV x ∧ (t.tonePort = true ↔ s.getV x ≠ 0) ∧ t.pc = s.pc + 2 ∧
      KeepsRegsBut [] s t ∧ KeepsAllBut [.sound] s t)

/-! ## Rules of the whole machine -/

/-- R23, R25: an instruction writes no general register but those its rule names. -/
def Obligations.OnlyNamedRegistersAreWritten : Prop :=
  ∀ (i : Instr) (s t : State) (r : Reg), exec i s = .next t → ¬WritesReg r i → t.getV r = s.getV r

/-- R31, R33-R35, R54: an instruction that does not fault writes no part of the state but the one its rule names; a fault
writes only the status and the record. -/
def Obligations.OnlyNamedPartsAreWritten : Prop :=
  ∀ (i : Instr) (s t : State), exec i s = .next t →
    KeepsAllBut (writtenParts i) s t ∨
      ∃ c, c ≠ .none ∧ t = { s with status := .faulted, fault := ⟨c, encode i, s.pc⟩ }

/-- R183: the delay timer never rises in a step, unless the CPU fetches and runs an `LD DT,Vx`, and then it becomes `V[x]`. -/
def Obligations.DelayTimerRisesOnlyByItsLoad : Prop :=
  ∀ s t : State, step s = .next t → t.dt.toNat ≤ s.dt.toNat ∨
    (CpuTurn s ∧ s.status = .running ∧ s.run = true ∧ 0x200 ≤ s.pc.toNat ∧ s.pc.toNat ≤ 0xFFE ∧
      ∃ x, decodeWord (readWord s.mem s.pc.toNat) = .ok (.ldDtVx x) ∧ t.dt = s.getV x)

/-- R70, R181: bytes that an `LD [I],Vx` stores right after itself are the word the very next fetch reads. -/
def Obligations.StoredWordIsFetchedNext : Prop :=
  ∀ (s : State) (x : Reg), 1 ≤ x.toNat → s.i.toNat = s.pc.toNat + 2 → s.i.toNat + x.toNat ≤ 0xFFF →
    ∃ t, exec (.ldStore x) s = .next t ∧ t.fetchWord = s.getV 0 ++ s.getV 1

/-- The canonical form is one: two memories in it that read the same at every address are equal data (the form is the
model's own, log entry 8). -/
def Obligations.CanonicalMemoriesReadingAlikeAreEqual : Prop :=
  ∀ m m' : Memory, m.wf → m'.wf → (∀ a, readByte m a = readByte m' a) → m = m'

/-! ## The host's inputs and the font -/

/-- R36, R43, R48, R67: a change of the key mask sets `KEYS`, a change of the run flag sets `run`, and neither changes
anything else. That the change is an event at a boundary is the model's form of the two ports (log entry 1). -/
def Obligations.HostEventsSetKeysAndRun : Prop :=
  (∀ (s : State) (mask : Word) (rest : List Event), s.pending = .keys mask :: rest →
    step s = .next { s with pending := rest, keys := mask }) ∧
  ∀ (s : State) (flag : Bool) (rest : List Event), s.pending = .run flag :: rest →
    step s = .next { s with pending := rest, run := flag }

/-- R131: after a reset, the five bytes of each digit's glyph stand at 5 times the digit. The place and the bytes are the
spec's decision D15 and its general knowledge, which the model follows (log entry 9). -/
def Obligations.ResetWritesFontGlyphs : Prop :=
  ∀ (s : State) (rest : List Event), s.pending = .reset :: rest → ∃ t, step s = .next t ∧
    readBytes t.mem 0x000 5 = [0xF0, 0x90, 0x90, 0x90, 0xF0] ∧ readBytes t.mem 0x005 5 = [0x20, 0x60, 0x20, 0x20, 0x70] ∧
    readBytes t.mem 0x00A 5 = [0xF0, 0x10, 0xF0, 0x80, 0xF0] ∧ readBytes t.mem 0x00F 5 = [0xF0, 0x10, 0xF0, 0x10, 0xF0] ∧
    readBytes t.mem 0x014 5 = [0x90, 0x90, 0xF0, 0x10, 0x10] ∧ readBytes t.mem 0x019 5 = [0xF0, 0x80, 0xF0, 0x10, 0xF0] ∧
    readBytes t.mem 0x01E 5 = [0xF0, 0x80, 0xF0, 0x90, 0xF0] ∧ readBytes t.mem 0x023 5 = [0xF0, 0x10, 0x20, 0x40, 0x40] ∧
    readBytes t.mem 0x028 5 = [0xF0, 0x90, 0xF0, 0x90, 0xF0] ∧ readBytes t.mem 0x02D 5 = [0xF0, 0x90, 0xF0, 0x10, 0xF0] ∧
    readBytes t.mem 0x032 5 = [0xF0, 0x90, 0xF0, 0x90, 0x90] ∧ readBytes t.mem 0x037 5 = [0xE0, 0x90, 0xE0, 0x90, 0xE0] ∧
    readBytes t.mem 0x03C 5 = [0xF0, 0x80, 0x80, 0x80, 0xF0] ∧ readBytes t.mem 0x041 5 = [0xE0, 0x90, 0x90, 0x90, 0xE0] ∧
    readBytes t.mem 0x046 5 = [0xF0, 0x80, 0xF0, 0x80, 0xF0] ∧ readBytes t.mem 0x04B 5 = [0xF0, 0x80, 0xF0, 0x80, 0x80]
end

