-- ==== Sys2Proof/Laws/State.lean ====
section
/-! SUPPORT. One lemma per field for each named update of the state. -/

namespace Sys2Proof.Machine

variable (s : State)

/-! ### `State.setV` -/

@[simp] theorem setV_v (x : Reg) (b : Byte) : (s.setV x b).v = s.v.set x.toNat b x.isLt := rfl
@[simp] theorem setV_i (x : Reg) (b : Byte) : (s.setV x b).i = s.i := rfl
@[simp] theorem setV_pc (x : Reg) (b : Byte) : (s.setV x b).pc = s.pc := rfl
@[simp] theorem setV_sp (x : Reg) (b : Byte) : (s.setV x b).sp = s.sp := rfl
@[simp] theorem setV_stack (x : Reg) (b : Byte) : (s.setV x b).stack = s.stack := rfl
@[simp] theorem setV_dt (x : Reg) (b : Byte) : (s.setV x b).dt = s.dt := rfl
@[simp] theorem setV_st (x : Reg) (b : Byte) : (s.setV x b).st = s.st := rfl
@[simp] theorem setV_mem (x : Reg) (b : Byte) : (s.setV x b).mem = s.mem := rfl
@[simp] theorem setV_fb (x : Reg) (b : Byte) : (s.setV x b).fb = s.fb := rfl
@[simp] theorem setV_status (x : Reg) (b : Byte) : (s.setV x b).status = s.status := rfl
@[simp] theorem setV_fault (x : Reg) (b : Byte) : (s.setV x b).fault = s.fault := rfl
@[simp] theorem setV_waitReg (x : Reg) (b : Byte) : (s.setV x b).waitReg = s.waitReg := rfl
@[simp] theorem setV_prevKeys (x : Reg) (b : Byte) : (s.setV x b).prevKeys = s.prevKeys := rfl
@[simp] theorem setV_keys (x : Reg) (b : Byte) : (s.setV x b).keys = s.keys := rfl
@[simp] theorem setV_run (x : Reg) (b : Byte) : (s.setV x b).run = s.run := rfl
@[simp] theorem setV_loadOpen (x : Reg) (b : Byte) : (s.setV x b).loadOpen = s.loadOpen := rfl
@[simp] theorem setV_pending (x : Reg) (b : Byte) : (s.setV x b).pending = s.pending := rfl
@[simp] theorem setV_rnd (x : Reg) (b : Byte) : (s.setV x b).rnd = s.rnd := rfl
@[simp] theorem setV_draws (x : Reg) (b : Byte) : (s.setV x b).draws = s.draws := rfl

/-! ### `State.setI` -/

@[simp] theorem setI_v (a : Word) : (s.setI a).v = s.v := rfl
@[simp] theorem setI_i (a : Word) : (s.setI a).i = a := rfl
@[simp] theorem setI_pc (a : Word) : (s.setI a).pc = s.pc := rfl
@[simp] theorem setI_sp (a : Word) : (s.setI a).sp = s.sp := rfl
@[simp] theorem setI_stack (a : Word) : (s.setI a).stack = s.stack := rfl
@[simp] theorem setI_dt (a : Word) : (s.setI a).dt = s.dt := rfl
@[simp] theorem setI_st (a : Word) : (s.setI a).st = s.st := rfl
@[simp] theorem setI_mem (a : Word) : (s.setI a).mem = s.mem := rfl
@[simp] theorem setI_fb (a : Word) : (s.setI a).fb = s.fb := rfl
@[simp] theorem setI_status (a : Word) : (s.setI a).status = s.status := rfl
@[simp] theorem setI_fault (a : Word) : (s.setI a).fault = s.fault := rfl
@[simp] theorem setI_waitReg (a : Word) : (s.setI a).waitReg = s.waitReg := rfl
@[simp] theorem setI_prevKeys (a : Word) : (s.setI a).prevKeys = s.prevKeys := rfl
@[simp] theorem setI_keys (a : Word) : (s.setI a).keys = s.keys := rfl
@[simp] theorem setI_run (a : Word) : (s.setI a).run = s.run := rfl
@[simp] theorem setI_loadOpen (a : Word) : (s.setI a).loadOpen = s.loadOpen := rfl
@[simp] theorem setI_pending (a : Word) : (s.setI a).pending = s.pending := rfl
@[simp] theorem setI_rnd (a : Word) : (s.setI a).rnd = s.rnd := rfl
@[simp] theorem setI_draws (a : Word) : (s.setI a).draws = s.draws := rfl

/-! ### `State.setPc` -/

@[simp] theorem setPc_v (a : Word) : (s.setPc a).v = s.v := rfl
@[simp] theorem setPc_i (a : Word) : (s.setPc a).i = s.i := rfl
@[simp] theorem setPc_pc (a : Word) : (s.setPc a).pc = a := rfl
@[simp] theorem setPc_sp (a : Word) : (s.setPc a).sp = s.sp := rfl
@[simp] theorem setPc_stack (a : Word) : (s.setPc a).stack = s.stack := rfl
@[simp] theorem setPc_dt (a : Word) : (s.setPc a).dt = s.dt := rfl
@[simp] theorem setPc_st (a : Word) : (s.setPc a).st = s.st := rfl
@[simp] theorem setPc_mem (a : Word) : (s.setPc a).mem = s.mem := rfl
@[simp] theorem setPc_fb (a : Word) : (s.setPc a).fb = s.fb := rfl
@[simp] theorem setPc_status (a : Word) : (s.setPc a).status = s.status := rfl
@[simp] theorem setPc_fault (a : Word) : (s.setPc a).fault = s.fault := rfl
@[simp] theorem setPc_waitReg (a : Word) : (s.setPc a).waitReg = s.waitReg := rfl
@[simp] theorem setPc_prevKeys (a : Word) : (s.setPc a).prevKeys = s.prevKeys := rfl
@[simp] theorem setPc_keys (a : Word) : (s.setPc a).keys = s.keys := rfl
@[simp] theorem setPc_run (a : Word) : (s.setPc a).run = s.run := rfl
@[simp] theorem setPc_loadOpen (a : Word) : (s.setPc a).loadOpen = s.loadOpen := rfl
@[simp] theorem setPc_pending (a : Word) : (s.setPc a).pending = s.pending := rfl
@[simp] theorem setPc_rnd (a : Word) : (s.setPc a).rnd = s.rnd := rfl
@[simp] theorem setPc_draws (a : Word) : (s.setPc a).draws = s.draws := rfl

/-! ### `State.setDt` -/

@[simp] theorem setDt_v (b : Byte) : (s.setDt b).v = s.v := rfl
@[simp] theorem setDt_i (b : Byte) : (s.setDt b).i = s.i := rfl
@[simp] theorem setDt_pc (b : Byte) : (s.setDt b).pc = s.pc := rfl
@[simp] theorem setDt_sp (b : Byte) : (s.setDt b).sp = s.sp := rfl
@[simp] theorem setDt_stack (b : Byte) : (s.setDt b).stack = s.stack := rfl
@[simp] theorem setDt_dt (b : Byte) : (s.setDt b).dt = b := rfl
@[simp] theorem setDt_st (b : Byte) : (s.setDt b).st = s.st := rfl
@[simp] theorem setDt_mem (b : Byte) : (s.setDt b).mem = s.mem := rfl
@[simp] theorem setDt_fb (b : Byte) : (s.setDt b).fb = s.fb := rfl
@[simp] theorem setDt_status (b : Byte) : (s.setDt b).status = s.status := rfl
@[simp] theorem setDt_fault (b : Byte) : (s.setDt b).fault = s.fault := rfl
@[simp] theorem setDt_waitReg (b : Byte) : (s.setDt b).waitReg = s.waitReg := rfl
@[simp] theorem setDt_prevKeys (b : Byte) : (s.setDt b).prevKeys = s.prevKeys := rfl
@[simp] theorem setDt_keys (b : Byte) : (s.setDt b).keys = s.keys := rfl
@[simp] theorem setDt_run (b : Byte) : (s.setDt b).run = s.run := rfl
@[simp] theorem setDt_loadOpen (b : Byte) : (s.setDt b).loadOpen = s.loadOpen := rfl
@[simp] theorem setDt_pending (b : Byte) : (s.setDt b).pending = s.pending := rfl
@[simp] theorem setDt_rnd (b : Byte) : (s.setDt b).rnd = s.rnd := rfl
@[simp] theorem setDt_draws (b : Byte) : (s.setDt b).draws = s.draws := rfl

/-! ### `State.setSt` -/

@[simp] theorem setSt_v (b : Byte) : (s.setSt b).v = s.v := rfl
@[simp] theorem setSt_i (b : Byte) : (s.setSt b).i = s.i := rfl
@[simp] theorem setSt_pc (b : Byte) : (s.setSt b).pc = s.pc := rfl
@[simp] theorem setSt_sp (b : Byte) : (s.setSt b).sp = s.sp := rfl
@[simp] theorem setSt_stack (b : Byte) : (s.setSt b).stack = s.stack := rfl
@[simp] theorem setSt_dt (b : Byte) : (s.setSt b).dt = s.dt := rfl
@[simp] theorem setSt_st (b : Byte) : (s.setSt b).st = b := rfl
@[simp] theorem setSt_mem (b : Byte) : (s.setSt b).mem = s.mem := rfl
@[simp] theorem setSt_fb (b : Byte) : (s.setSt b).fb = s.fb := rfl
@[simp] theorem setSt_status (b : Byte) : (s.setSt b).status = s.status := rfl
@[simp] theorem setSt_fault (b : Byte) : (s.setSt b).fault = s.fault := rfl
@[simp] theorem setSt_waitReg (b : Byte) : (s.setSt b).waitReg = s.waitReg := rfl
@[simp] theorem setSt_prevKeys (b : Byte) : (s.setSt b).prevKeys = s.prevKeys := rfl
@[simp] theorem setSt_keys (b : Byte) : (s.setSt b).keys = s.keys := rfl
@[simp] theorem setSt_run (b : Byte) : (s.setSt b).run = s.run := rfl
@[simp] theorem setSt_loadOpen (b : Byte) : (s.setSt b).loadOpen = s.loadOpen := rfl
@[simp] theorem setSt_pending (b : Byte) : (s.setSt b).pending = s.pending := rfl
@[simp] theorem setSt_rnd (b : Byte) : (s.setSt b).rnd = s.rnd := rfl
@[simp] theorem setSt_draws (b : Byte) : (s.setSt b).draws = s.draws := rfl

/-! ### `State.setFb` -/

@[simp] theorem setFb_v (f : Framebuffer) : (s.setFb f).v = s.v := rfl
@[simp] theorem setFb_i (f : Framebuffer) : (s.setFb f).i = s.i := rfl
@[simp] theorem setFb_pc (f : Framebuffer) : (s.setFb f).pc = s.pc := rfl
@[simp] theorem setFb_sp (f : Framebuffer) : (s.setFb f).sp = s.sp := rfl
@[simp] theorem setFb_stack (f : Framebuffer) : (s.setFb f).stack = s.stack := rfl
@[simp] theorem setFb_dt (f : Framebuffer) : (s.setFb f).dt = s.dt := rfl
@[simp] theorem setFb_st (f : Framebuffer) : (s.setFb f).st = s.st := rfl
@[simp] theorem setFb_mem (f : Framebuffer) : (s.setFb f).mem = s.mem := rfl
@[simp] theorem setFb_fb (f : Framebuffer) : (s.setFb f).fb = f := rfl
@[simp] theorem setFb_status (f : Framebuffer) : (s.setFb f).status = s.status := rfl
@[simp] theorem setFb_fault (f : Framebuffer) : (s.setFb f).fault = s.fault := rfl
@[simp] theorem setFb_waitReg (f : Framebuffer) : (s.setFb f).waitReg = s.waitReg := rfl
@[simp] theorem setFb_prevKeys (f : Framebuffer) : (s.setFb f).prevKeys = s.prevKeys := rfl
@[simp] theorem setFb_keys (f : Framebuffer) : (s.setFb f).keys = s.keys := rfl
@[simp] theorem setFb_run (f : Framebuffer) : (s.setFb f).run = s.run := rfl
@[simp] theorem setFb_loadOpen (f : Framebuffer) : (s.setFb f).loadOpen = s.loadOpen := rfl
@[simp] theorem setFb_pending (f : Framebuffer) : (s.setFb f).pending = s.pending := rfl
@[simp] theorem setFb_rnd (f : Framebuffer) : (s.setFb f).rnd = s.rnd := rfl
@[simp] theorem setFb_draws (f : Framebuffer) : (s.setFb f).draws = s.draws := rfl

/-! ### `State.advance` -/

@[simp] theorem advance_v : (s.advance).v = s.v := rfl
@[simp] theorem advance_i : (s.advance).i = s.i := rfl
@[simp] theorem advance_pc : (s.advance).pc = s.pc + 2 := rfl
@[simp] theorem advance_sp : (s.advance).sp = s.sp := rfl
@[simp] theorem advance_stack : (s.advance).stack = s.stack := rfl
@[simp] theorem advance_dt : (s.advance).dt = s.dt := rfl
@[simp] theorem advance_st : (s.advance).st = s.st := rfl
@[simp] theorem advance_mem : (s.advance).mem = s.mem := rfl
@[simp] theorem advance_fb : (s.advance).fb = s.fb := rfl
@[simp] theorem advance_status : (s.advance).status = s.status := rfl
@[simp] theorem advance_fault : (s.advance).fault = s.fault := rfl
@[simp] theorem advance_waitReg : (s.advance).waitReg = s.waitReg := rfl
@[simp] theorem advance_prevKeys : (s.advance).prevKeys = s.prevKeys := rfl
@[simp] theorem advance_keys : (s.advance).keys = s.keys := rfl
@[simp] theorem advance_run : (s.advance).run = s.run := rfl
@[simp] theorem advance_loadOpen : (s.advance).loadOpen = s.loadOpen := rfl
@[simp] theorem advance_pending : (s.advance).pending = s.pending := rfl
@[simp] theorem advance_rnd : (s.advance).rnd = s.rnd := rfl
@[simp] theorem advance_draws : (s.advance).draws = s.draws := rfl

/-! ### `State.setFirstRegs` -/

@[simp] theorem setFirstRegs_v (bs : List Byte) : (s.setFirstRegs bs).v = loadRegs s.v 0 bs := rfl
@[simp] theorem setFirstRegs_i (bs : List Byte) : (s.setFirstRegs bs).i = s.i := rfl
@[simp] theorem setFirstRegs_pc (bs : List Byte) : (s.setFirstRegs bs).pc = s.pc := rfl
@[simp] theorem setFirstRegs_sp (bs : List Byte) : (s.setFirstRegs bs).sp = s.sp := rfl
@[simp] theorem setFirstRegs_stack (bs : List Byte) : (s.setFirstRegs bs).stack = s.stack := rfl
@[simp] theorem setFirstRegs_dt (bs : List Byte) : (s.setFirstRegs bs).dt = s.dt := rfl
@[simp] theorem setFirstRegs_st (bs : List Byte) : (s.setFirstRegs bs).st = s.st := rfl
@[simp] theorem setFirstRegs_mem (bs : List Byte) : (s.setFirstRegs bs).mem = s.mem := rfl
@[simp] theorem setFirstRegs_fb (bs : List Byte) : (s.setFirstRegs bs).fb = s.fb := rfl
@[simp] theorem setFirstRegs_status (bs : List Byte) : (s.setFirstRegs bs).status = s.status := rfl
@[simp] theorem setFirstRegs_fault (bs : List Byte) : (s.setFirstRegs bs).fault = s.fault := rfl
@[simp] theorem setFirstRegs_waitReg (bs : List Byte) : (s.setFirstRegs bs).waitReg = s.waitReg := rfl
@[simp] theorem setFirstRegs_prevKeys (bs : List Byte) : (s.setFirstRegs bs).prevKeys = s.prevKeys := rfl
@[simp] theorem setFirstRegs_keys (bs : List Byte) : (s.setFirstRegs bs).keys = s.keys := rfl
@[simp] theorem setFirstRegs_run (bs : List Byte) : (s.setFirstRegs bs).run = s.run := rfl
@[simp] theorem setFirstRegs_loadOpen (bs : List Byte) : (s.setFirstRegs bs).loadOpen = s.loadOpen := rfl
@[simp] theorem setFirstRegs_pending (bs : List Byte) : (s.setFirstRegs bs).pending = s.pending := rfl
@[simp] theorem setFirstRegs_rnd (bs : List Byte) : (s.setFirstRegs bs).rnd = s.rnd := rfl
@[simp] theorem setFirstRegs_draws (bs : List Byte) : (s.setFirstRegs bs).draws = s.draws := rfl

/-! ### `State.takeDraw` -/

@[simp] theorem takeDraw_v : (s.takeDraw).v = s.v := rfl
@[simp] theorem takeDraw_i : (s.takeDraw).i = s.i := rfl
@[simp] theorem takeDraw_pc : (s.takeDraw).pc = s.pc := rfl
@[simp] theorem takeDraw_sp : (s.takeDraw).sp = s.sp := rfl
@[simp] theorem takeDraw_stack : (s.takeDraw).stack = s.stack := rfl
@[simp] theorem takeDraw_dt : (s.takeDraw).dt = s.dt := rfl
@[simp] theorem takeDraw_st : (s.takeDraw).st = s.st := rfl
@[simp] theorem takeDraw_mem : (s.takeDraw).mem = s.mem := rfl
@[simp] theorem takeDraw_fb : (s.takeDraw).fb = s.fb := rfl
@[simp] theorem takeDraw_status : (s.takeDraw).status = s.status := rfl
@[simp] theorem takeDraw_fault : (s.takeDraw).fault = s.fault := rfl
@[simp] theorem takeDraw_waitReg : (s.takeDraw).waitReg = s.waitReg := rfl
@[simp] theorem takeDraw_prevKeys : (s.takeDraw).prevKeys = s.prevKeys := rfl
@[simp] theorem takeDraw_keys : (s.takeDraw).keys = s.keys := rfl
@[simp] theorem takeDraw_run : (s.takeDraw).run = s.run := rfl
@[simp] theorem takeDraw_loadOpen : (s.takeDraw).loadOpen = s.loadOpen := rfl
@[simp] theorem takeDraw_pending : (s.takeDraw).pending = s.pending := rfl
@[simp] theorem takeDraw_rnd : (s.takeDraw).rnd = s.rnd.tail := rfl
@[simp] theorem takeDraw_draws : (s.takeDraw).draws = s.draws + 1 := rfl

/-! ### `State.enterWait` -/

@[simp] theorem enterWait_v (x : Reg) : (s.enterWait x).v = s.v := rfl
@[simp] theorem enterWait_i (x : Reg) : (s.enterWait x).i = s.i := rfl
@[simp] theorem enterWait_pc (x : Reg) : (s.enterWait x).pc = s.pc := rfl
@[simp] theorem enterWait_sp (x : Reg) : (s.enterWait x).sp = s.sp := rfl
@[simp] theorem enterWait_stack (x : Reg) : (s.enterWait x).stack = s.stack := rfl
@[simp] theorem enterWait_dt (x : Reg) : (s.enterWait x).dt = s.dt := rfl
@[simp] theorem enterWait_st (x : Reg) : (s.enterWait x).st = s.st := rfl
@[simp] theorem enterWait_mem (x : Reg) : (s.enterWait x).mem = s.mem := rfl
@[simp] theorem enterWait_fb (x : Reg) : (s.enterWait x).fb = s.fb := rfl
@[simp] theorem enterWait_status (x : Reg) : (s.enterWait x).status = .waitingKey := rfl
@[simp] theorem enterWait_fault (x : Reg) : (s.enterWait x).fault = s.fault := rfl
@[simp] theorem enterWait_waitReg (x : Reg) : (s.enterWait x).waitReg = x := rfl
@[simp] theorem enterWait_prevKeys (x : Reg) : (s.enterWait x).prevKeys = s.keys := rfl
@[simp] theorem enterWait_keys (x : Reg) : (s.enterWait x).keys = s.keys := rfl
@[simp] theorem enterWait_run (x : Reg) : (s.enterWait x).run = s.run := rfl
@[simp] theorem enterWait_loadOpen (x : Reg) : (s.enterWait x).loadOpen = s.loadOpen := rfl
@[simp] theorem enterWait_pending (x : Reg) : (s.enterWait x).pending = s.pending := rfl
@[simp] theorem enterWait_rnd (x : Reg) : (s.enterWait x).rnd = s.rnd := rfl
@[simp] theorem enterWait_draws (x : Reg) : (s.enterWait x).draws = s.draws := rfl

/-! ### `State.raise` -/

@[simp] theorem raise_v (c : Cause) (w a : Word) : (s.raise c w a).v = s.v := rfl
@[simp] theorem raise_i (c : Cause) (w a : Word) : (s.raise c w a).i = s.i := rfl
@[simp] theorem raise_pc (c : Cause) (w a : Word) : (s.raise c w a).pc = s.pc := rfl
@[simp] theorem raise_sp (c : Cause) (w a : Word) : (s.raise c w a).sp = s.sp := rfl
@[simp] theorem raise_stack (c : Cause) (w a : Word) : (s.raise c w a).stack = s.stack := rfl
@[simp] theorem raise_dt (c : Cause) (w a : Word) : (s.raise c w a).dt = s.dt := rfl
@[simp] theorem raise_st (c : Cause) (w a : Word) : (s.raise c w a).st = s.st := rfl
@[simp] theorem raise_mem (c : Cause) (w a : Word) : (s.raise c w a).mem = s.mem := rfl
@[simp] theorem raise_fb (c : Cause) (w a : Word) : (s.raise c w a).fb = s.fb := rfl
@[simp] theorem raise_status (c : Cause) (w a : Word) : (s.raise c w a).status = .faulted := rfl
@[simp] theorem raise_fault (c : Cause) (w a : Word) : (s.raise c w a).fault = ⟨c, w, a⟩ := rfl
@[simp] theorem raise_waitReg (c : Cause) (w a : Word) : (s.raise c w a).waitReg = s.waitReg := rfl
@[simp] theorem raise_prevKeys (c : Cause) (w a : Word) : (s.raise c w a).prevKeys = s.prevKeys := rfl
@[simp] theorem raise_keys (c : Cause) (w a : Word) : (s.raise c w a).keys = s.keys := rfl
@[simp] theorem raise_run (c : Cause) (w a : Word) : (s.raise c w a).run = s.run := rfl
@[simp] theorem raise_loadOpen (c : Cause) (w a : Word) : (s.raise c w a).loadOpen = s.loadOpen := rfl
@[simp] theorem raise_pending (c : Cause) (w a : Word) : (s.raise c w a).pending = s.pending := rfl
@[simp] theorem raise_rnd (c : Cause) (w a : Word) : (s.raise c w a).rnd = s.rnd := rfl
@[simp] theorem raise_draws (c : Cause) (w a : Word) : (s.raise c w a).draws = s.draws := rfl

/-! ### `State.stop` -/

@[simp] theorem stop_v : (s.stop).v = s.v := rfl
@[simp] theorem stop_i : (s.stop).i = s.i := rfl
@[simp] theorem stop_pc : (s.stop).pc = s.pc := rfl
@[simp] theorem stop_sp : (s.stop).sp = s.sp := rfl
@[simp] theorem stop_stack : (s.stop).stack = s.stack := rfl
@[simp] theorem stop_dt : (s.stop).dt = s.dt := rfl
@[simp] theorem stop_st : (s.stop).st = s.st := rfl
@[simp] theorem stop_mem : (s.stop).mem = s.mem := rfl
@[simp] theorem stop_fb : (s.stop).fb = s.fb := rfl
@[simp] theorem stop_status : (s.stop).status = .stopped := rfl
@[simp] theorem stop_fault : (s.stop).fault = s.fault := rfl
@[simp] theorem stop_waitReg : (s.stop).waitReg = s.waitReg := rfl
@[simp] theorem stop_prevKeys : (s.stop).prevKeys = s.prevKeys := rfl
@[simp] theorem stop_keys : (s.stop).keys = s.keys := rfl
@[simp] theorem stop_run : (s.stop).run = s.run := rfl
@[simp] theorem stop_loadOpen : (s.stop).loadOpen = s.loadOpen := rfl
@[simp] theorem stop_pending : (s.stop).pending = s.pending := rfl
@[simp] theorem stop_rnd : (s.stop).rnd = s.rnd := rfl
@[simp] theorem stop_draws : (s.stop).draws = s.draws := rfl

/-! ### `State.closeLoad` -/

@[simp] theorem closeLoad_v : (s.closeLoad).v = s.v := rfl
@[simp] theorem closeLoad_i : (s.closeLoad).i = s.i := rfl
@[simp] theorem closeLoad_pc : (s.closeLoad).pc = s.pc := rfl
@[simp] theorem closeLoad_sp : (s.closeLoad).sp = s.sp := rfl
@[simp] theorem closeLoad_stack : (s.closeLoad).stack = s.stack := rfl
@[simp] theorem closeLoad_dt : (s.closeLoad).dt = s.dt := rfl
@[simp] theorem closeLoad_st : (s.closeLoad).st = s.st := rfl
@[simp] theorem closeLoad_mem : (s.closeLoad).mem = s.mem := rfl
@[simp] theorem closeLoad_fb : (s.closeLoad).fb = s.fb := rfl
@[simp] theorem closeLoad_status : (s.closeLoad).status = s.status := rfl
@[simp] theorem closeLoad_fault : (s.closeLoad).fault = s.fault := rfl
@[simp] theorem closeLoad_waitReg : (s.closeLoad).waitReg = s.waitReg := rfl
@[simp] theorem closeLoad_prevKeys : (s.closeLoad).prevKeys = s.prevKeys := rfl
@[simp] theorem closeLoad_keys : (s.closeLoad).keys = s.keys := rfl
@[simp] theorem closeLoad_run : (s.closeLoad).run = s.run := rfl
@[simp] theorem closeLoad_loadOpen : (s.closeLoad).loadOpen = false := rfl
@[simp] theorem closeLoad_pending : (s.closeLoad).pending = s.pending := rfl
@[simp] theorem closeLoad_rnd : (s.closeLoad).rnd = s.rnd := rfl
@[simp] theorem closeLoad_draws : (s.closeLoad).draws = s.draws := rfl

/-! ### `State.skipIf` -/

@[simp] theorem skipIf_v (c : Bool) : (s.skipIf c).v = s.v := by cases c <;> rfl
@[simp] theorem skipIf_i (c : Bool) : (s.skipIf c).i = s.i := by cases c <;> rfl
@[simp] theorem skipIf_pc (c : Bool) : (s.skipIf c).pc = if c then s.pc + 2 else s.pc := by
  cases c <;> rfl
@[simp] theorem skipIf_sp (c : Bool) : (s.skipIf c).sp = s.sp := by cases c <;> rfl
@[simp] theorem skipIf_stack (c : Bool) : (s.skipIf c).stack = s.stack := by cases c <;> rfl
@[simp] theorem skipIf_dt (c : Bool) : (s.skipIf c).dt = s.dt := by cases c <;> rfl
@[simp] theorem skipIf_st (c : Bool) : (s.skipIf c).st = s.st := by cases c <;> rfl
@[simp] theorem skipIf_mem (c : Bool) : (s.skipIf c).mem = s.mem := by cases c <;> rfl
@[simp] theorem skipIf_fb (c : Bool) : (s.skipIf c).fb = s.fb := by cases c <;> rfl
@[simp] theorem skipIf_status (c : Bool) : (s.skipIf c).status = s.status := by cases c <;> rfl
@[simp] theorem skipIf_fault (c : Bool) : (s.skipIf c).fault = s.fault := by cases c <;> rfl
@[simp] theorem skipIf_waitReg (c : Bool) : (s.skipIf c).waitReg = s.waitReg := by cases c <;> rfl
@[simp] theorem skipIf_prevKeys (c : Bool) : (s.skipIf c).prevKeys = s.prevKeys := by cases c <;> rfl
@[simp] theorem skipIf_keys (c : Bool) : (s.skipIf c).keys = s.keys := by cases c <;> rfl
@[simp] theorem skipIf_run (c : Bool) : (s.skipIf c).run = s.run := by cases c <;> rfl
@[simp] theorem skipIf_loadOpen (c : Bool) : (s.skipIf c).loadOpen = s.loadOpen := by cases c <;> rfl
@[simp] theorem skipIf_pending (c : Bool) : (s.skipIf c).pending = s.pending := by cases c <;> rfl
@[simp] theorem skipIf_rnd (c : Bool) : (s.skipIf c).rnd = s.rnd := by cases c <;> rfl
@[simp] theorem skipIf_draws (c : Bool) : (s.skipIf c).draws = s.draws := by cases c <;> rfl

end Sys2Proof.Machine
end

