-- ==== Sys2Proof/Laws/Memory.lean ====
section
/-! SUPPORT. Laws of memory: what a read gives after a write, and that every operation keeps the canonical form. -/

namespace Sys2Proof.Machine

/-! ### Reading after writing -/

theorem readByte_eraseByte (m : Memory) (a b : Nat) :
    readByte (eraseByte m a) b = if b = a then initialByte b else readByte m b := by
  induction m with
  | nil => simp [eraseByte, readByte]
  | cons c m ih =>
    obtain ⟨k, u⟩ := c
    by_cases hk : k = a
    · subst hk
      have : eraseByte ((k, u) :: m) k = eraseByte m k := by simp [eraseByte]
      rw [this, ih]
      by_cases hb : b = k
      · simp [hb]
      · simp [hb, readByte, Ne.symm hb]
    · have : eraseByte ((k, u) :: m) a = (k, u) :: eraseByte m a := by simp [eraseByte, hk]
      rw [this]
      simp only [readByte, ih]
      by_cases hkb : k = b
      · subst hkb; simp [hk]
      · simp [hkb]

theorem readByte_insertByte (m : Memory) (a b : Nat) (u : Byte) (ha : ∀ c ∈ m, c.1 ≠ a) :
    readByte (insertByte a u m) b = if b = a then u else readByte m b := by
  induction m with
  | nil => simp [insertByte, readByte, eq_comm]
  | cons c m ih =>
    obtain ⟨k, w⟩ := c
    have hk : k ≠ a := ha (k, w) (by simp)
    have ih := ih (fun c hc => ha c (by simp [hc]))
    simp only [insertByte]
    split
    · simp [readByte, eq_comm]
    · simp only [readByte, ih]
      by_cases hkb : k = b
      · subst hkb; simp [hk]
      · simp [hkb]

theorem eraseByte_ne (m : Memory) (a : Nat) : ∀ c ∈ eraseByte m a, c.1 ≠ a := by
  simp [eraseByte]

/-- A write changes only the addressed byte (20_memory.md R61). -/
theorem readByte_writeByte (m : Memory) (a b : Nat) (u : Byte) :
    readByte (writeByte m a u) b = if b = a then u else readByte m b := by
  unfold writeByte
  split
  · rw [readByte_eraseByte]; split <;> simp_all
  · rw [readByte_insertByte _ _ _ _ (eraseByte_ne m a), readByte_eraseByte]; split <;> simp_all

/-- What every address reads after a block write. -/
theorem readByte_writeBytes (us : List Byte) (m : Memory) (a b : Nat) :
    readByte (writeBytes m a us) b =
      if a ≤ b ∧ b < a + us.length then us.getD (b - a) 0 else readByte m b := by
  induction us generalizing m a with
  | nil => simp [writeBytes]
  | cons u us ih =>
    rw [writeBytes, ih, readByte_writeByte]
    by_cases hb : b = a
    · subst hb; simp
    · by_cases h : a + 1 ≤ b ∧ b < a + 1 + us.length
      · have : b - a = (b - (a + 1)) + 1 := by omega
        rw [if_pos h, if_pos (by simp; omega), this]; rfl
      · rw [if_neg h, if_neg hb, if_neg (by simp; omega)]

theorem readByte_writeBytes_outside {us : List Byte} {m : Memory} {a b : Nat} (h : b < a ∨ a + us.length ≤ b) :
    readByte (writeBytes m a us) b = readByte m b := by
  rw [readByte_writeBytes, if_neg (by omega)]

theorem readByte_writeBytes_inside {us : List Byte} {m : Memory} {a k : Nat} (h : k < us.length) :
    readByte (writeBytes m a us) (a + k) = us.getD k 0 := by
  rw [readByte_writeBytes, if_pos (by omega), Nat.add_sub_cancel_left]

@[simp] theorem readBytes_length (m : Memory) (a n : Nat) : (readBytes m a n).length = n := by simp [readBytes]

theorem readBytes_getD {m : Memory} {a n k : Nat} (h : k < n) : (readBytes m a n).getD k 0 = readByte m (a + k) := by
  simp [readBytes, List.getD, h]

/-! ### The canonical form -/

theorem eraseByte_wf {m : Memory} (h : m.wf) (a : Nat) : Memory.wf (eraseByte m a) :=
  ⟨h.1.filter _, fun c hc => h.2 c (List.mem_of_mem_filter hc)⟩

theorem mem_insertByte {m : Memory} {a : Nat} {u : Byte} {c : Host.Cell} (h : c ∈ insertByte a u m) :
    c = (a, u) ∨ c ∈ m := by
  induction m with
  | nil => simpa [insertByte] using h
  | cons d m ih =>
    simp only [insertByte] at h
    split at h
    · simpa using h
    · rcases List.mem_cons.1 h with rfl | h
      · simp
      · rcases ih h with rfl | h <;> simp [*]

theorem insertByte_wf {m : Memory} (h : m.wf) {a : Nat} {u : Byte} (ha : a < Config.memSize)
    (hu : u ≠ initialByte a) (hne : ∀ c ∈ m, c.1 ≠ a) : Memory.wf (insertByte a u m) := by
  refine ⟨?_, fun c hc => ?_⟩
  · induction m with
    | nil => simp [insertByte]
    | cons d m ih =>
      obtain ⟨h1, h2⟩ := List.pairwise_cons.1 h.1
      simp only [insertByte]
      split
      · rename_i hlt
        refine List.pairwise_cons.2 ⟨fun c hc => ?_, h.1⟩
        rcases List.mem_cons.1 hc with rfl | hc
        · exact hlt
        · exact Nat.lt_trans hlt (h1 c hc)
      · rename_i hlt
        have hd : d.1 ≠ a := hne d (by simp)
        refine List.pairwise_cons.2 ⟨fun c hc => ?_,
          ih ⟨h2, fun c hc => h.2 c (by simp [hc])⟩ (fun c hc => hne c (by simp [hc]))⟩
        rcases mem_insertByte hc with rfl | hc
        · show d.1 < a
          have : ¬ a < d.1 := hlt
          omega
        · exact h1 c hc
  · rcases mem_insertByte hc with rfl | hc
    · exact ⟨ha, hu⟩
    · exact h.2 c hc

/-- Every write keeps the canonical form. -/
theorem writeByte_wf {m : Memory} (h : m.wf) {a : Nat} (u : Byte) (ha : a < Config.memSize) :
    Memory.wf (writeByte m a u) := by
  unfold writeByte
  split
  · exact eraseByte_wf h a
  · exact insertByte_wf (eraseByte_wf h a) ha ‹_› (eraseByte_ne m a)

theorem writeBytes_wf {us : List Byte} {m : Memory} (h : m.wf) {a : Nat}
    (ha : us = [] ∨ a + us.length ≤ Config.memSize) : Memory.wf (writeBytes m a us) := by
  induction us generalizing m a with
  | nil => exact h
  | cons u us ih =>
    simp only [reduceCtorEq, List.length_cons, false_or] at ha
    exact ih (writeByte_wf h u (by omega)) (.inr (by omega))

theorem reset_mem_wf : State.reset.mem.wf := by decide

/-! ### The range check (20_memory.md R60) -/

theorem inRange_iff (a n : Nat) : inRange a n = true ↔ n = 0 ∨ a + n - 1 ≤ 0xFFF := by simp [inRange]

theorem loadBlock_ok {s : State} {a n : Nat} (h : n = 0 ∨ a + n - 1 ≤ 0xFFF) :
    s.loadBlock a n = .ok (readBytes s.mem a n) := by
  simp [State.loadBlock, (inRange_iff a n).2 h]

theorem loadBlock_error {s : State} {a n : Nat} (h : ¬(n = 0 ∨ a + n - 1 ≤ 0xFFF)) :
    s.loadBlock a n = .error .addressRange := by
  have : inRange a n = false := by simpa [inRange] using h
  simp [State.loadBlock, this]

theorem storeBlock_ok {s : State} {a : Nat} {bs : List Byte} (h : bs.length = 0 ∨ a + bs.length - 1 ≤ 0xFFF) :
    s.storeBlock a bs = .ok { s with mem := writeBytes s.mem a bs } := by
  simp only [State.storeBlock, (inRange_iff a bs.length).2 h, if_true]

theorem storeBlock_error {s : State} {a : Nat} {bs : List Byte} (h : ¬(bs.length = 0 ∨ a + bs.length - 1 ≤ 0xFFF)) :
    s.storeBlock a bs = .error .addressRange := by
  have : inRange a bs.length = false := by simpa [inRange] using h
  simp [State.storeBlock, this]

/-- A block write that answers a state has written in range, and keeps the canonical form. -/
theorem storeBlock_wf {s t : State} {a : Nat} {bs : List Byte} (h : s.storeBlock a bs = .ok t) (hm : s.mem.wf) :
    t.mem.wf := by
  unfold State.storeBlock at h
  split at h
  · rename_i hr
    cases h
    have := (inRange_iff a bs.length).1 hr
    refine writeBytes_wf hm ?_
    rcases bs with _ | ⟨b, bs⟩
    · exact .inl rfl
    · simp only [List.length_cons] at this ⊢
      exact .inr (by simp only [Config.memSize]; omega)
  · cases h

end Sys2Proof.Machine
end

