-- ==== Sys2Proof/Laws/Ops.lean ====
section
/-! SUPPORT. Laws of the register, stack and commit operations. -/

namespace Sys2Proof.Machine

/-! ### Registers -/

theorem getV_eq_of_v {s t : State} (h : t.v = s.v) (r : Reg) : t.getV r = s.getV r := by
  simp only [State.getV, h]

theorem getV_setV (s : State) (x r : Reg) (b : Byte) : (s.setV x b).getV r = if r = x then b else s.getV r := by
  unfold State.getV State.setV
  by_cases h : r = x
  · subst h; simp
  · have : x.toNat ≠ r.toNat := fun e => h (BitVec.eq_of_toNat_eq e.symm)
    simp [h, Vector.getElem_set_ne, this]

@[simp] theorem getV_setV_same (s : State) (x : Reg) (b : Byte) : (s.setV x b).getV x = b := by simp [getV_setV]

theorem getV_setV_ne (s : State) {x r : Reg} (b : Byte) (h : r ≠ x) : (s.setV x b).getV r = s.getV r := by
  simp [getV_setV, h]

section
variable (s : State) (r : Reg)
@[simp] theorem getV_setI (a : Word) : (s.setI a).getV r = s.getV r := rfl
@[simp] theorem getV_setPc (a : Word) : (s.setPc a).getV r = s.getV r := rfl
@[simp] theorem getV_setDt (b : Byte) : (s.setDt b).getV r = s.getV r := rfl
@[simp] theorem getV_setSt (b : Byte) : (s.setSt b).getV r = s.getV r := rfl
@[simp] theorem getV_setFb (f : Framebuffer) : (s.setFb f).getV r = s.getV r := rfl
@[simp] theorem getV_advance : s.advance.getV r = s.getV r := rfl
@[simp] theorem getV_takeDraw : s.takeDraw.getV r = s.getV r := rfl
@[simp] theorem getV_enterWait (x : Reg) : (s.enterWait x).getV r = s.getV r := rfl
@[simp] theorem getV_raise (c : Cause) (w a : Word) : (s.raise c w a).getV r = s.getV r := rfl
@[simp] theorem getV_skipIf (c : Bool) : (s.skipIf c).getV r = s.getV r := by cases c <;> rfl
@[simp] theorem slot_setV (x : Reg) (b : Byte) (k : Nat) : (s.setV x b).slot k = s.slot k := rfl
@[simp] theorem slot_setPc (a : Word) (k : Nat) : (s.setPc a).slot k = s.slot k := rfl
@[simp] theorem slot_advance (k : Nat) : s.advance.slot k = s.slot k := rfl
end

/-- Result, then flag: the flag stands in VF (42_alu.md R115). -/
theorem getV_resultThenFlag (s : State) (x r : Reg) (b : Byte) (f : Bool) :
    (s.resultThenFlag x b f).getV r = if r = VF then flagByte f else if r = x then b else s.getV r := by
  simp only [State.resultThenFlag, getV_setV]

/-- Flag, then result: the result stands in Vx (42_alu.md R115). -/
theorem getV_flagThenResult (s : State) (x r : Reg) (b : Byte) (f : Bool) :
    (s.flagThenResult x b f).getV r = if r = x then b else if r = VF then flagByte f else s.getV r := by
  simp only [State.flagThenResult, getV_setV]

theorem loadRegs_get (bs : List Byte) (v : Vector Byte 16) (k j : Nat) (hj : j < 16) :
    (loadRegs v k bs)[j] = if k ≤ j ∧ j < k + bs.length then bs.getD (j - k) 0 else v[j] := by
  induction bs generalizing v k with
  | nil => simp [loadRegs]
  | cons b bs ih =>
    rw [loadRegs, ih, Vector.getElem_setIfInBounds hj]
    by_cases hjk : j = k
    · subst hjk; simp
    · by_cases h : k + 1 ≤ j ∧ j < k + 1 + bs.length
      · have : j - k = (j - (k + 1)) + 1 := by omega
        rw [if_pos h, if_pos (by simp; omega), this]; rfl
      · rw [if_neg h, if_neg (by omega), if_neg (by simp; omega)]

/-- What every register holds after a block load from V0 up (43_index_memory.md R135). -/
theorem getV_setFirstRegs (s : State) (bs : List Byte) (r : Reg) :
    (s.setFirstRegs bs).getV r = if r.toNat < bs.length then bs.getD r.toNat 0 else s.getV r := by
  unfold State.setFirstRegs State.getV
  simp only
  rw [loadRegs_get]
  simp

@[simp] theorem firstRegs_length (s : State) (x : Reg) : (s.firstRegs x).length = x.toNat + 1 := by
  have := x.isLt
  simp [State.firstRegs]; omega

theorem firstRegs_getD (s : State) {x r : Reg} (h : r.toNat ≤ x.toNat) :
    (s.firstRegs x).getD r.toNat 0 = s.getV r := by
  have := r.isLt
  have hlt : r.toNat < x.toNat + 1 := by omega
  have hv : s.v[r.toNat]? = some (s.v[r.toNat]'this) := by simp
  simp [State.firstRegs, State.getV, List.getD, hlt, hv]

/-! ### The call stack -/

/-- A push answers the overflow fault, or writes slot `sp+1` and counts it. -/
theorem push_cases (s : State) (a : Word) :
    (s.sp.val = 16 ∧ s.push a = .error .stackOverflow) ∨
    ∃ t, s.sp.val < 16 ∧ s.push a = .ok t ∧ t.sp.val = s.sp.val + 1 ∧
      (∀ k, 1 ≤ k → k ≤ 16 → t.slot k = if k = s.sp.val + 1 then a else s.slot k) ∧
      t = { s with stack := t.stack, sp := t.sp } := by
  unfold State.push
  by_cases h : s.sp.val < 16
  · refine .inr ⟨{ s with stack := s.stack.set s.sp.val a h, sp := ⟨s.sp.val + 1, by omega⟩ }, h, dif_pos h, rfl,
      fun k h1 h2 => ?_, rfl⟩
    simp only [State.slot, Vector.toList_set, List.getD_eq_getElem?_getD, List.getElem?_set, Vector.length_toList]
    by_cases hk : k = s.sp.val + 1
    · subst hk; simp [h]
    · have : s.sp.val ≠ k - 1 := by omega
      simp [hk, this]
  · have := s.sp.isLt
    exact .inl ⟨by omega, by simp [h]⟩

/-- A pop answers the underflow fault, or takes the top slot into `pc` and drops it. -/
theorem popPc_cases (s : State) :
    (s.sp.val = 0 ∧ s.popPc = .error .stackUnderflow) ∨
    ∃ t, 1 ≤ s.sp.val ∧ s.popPc = .ok t ∧ t.pc = s.slot s.sp.val ∧ t.sp.val = s.sp.val - 1 ∧
      t = { s with pc := t.pc, sp := t.sp } := by
  unfold State.popPc
  by_cases h : s.sp.val = 0
  · exact .inl ⟨h, by simp [h]⟩
  · exact .inr ⟨_, by omega, by simp only [h, if_false]; rfl, rfl, rfl, rfl⟩

/-! ### Commit -/

@[simp] theorem complete_ok (s t : State) (i : Instr) : s.complete i (.ok t) = .next t := rfl
@[simp] theorem complete_error (s : State) (i : Instr) (c : Cause) :
    s.complete i (.error c) = .next (s.raise c (encode i) s.pc) := rfl

/-- A commit always answers a next state: the staged one, or the fault's (40_cycle.md R97). -/
theorem complete_cases {s t : State} {i : Instr} {r : Except Cause State} (h : s.complete i r = .next t) :
    r = .ok t ∨ ∃ c, r = .error c ∧ t = s.raise c (encode i) s.pc := by
  cases r with
  | ok u => simp only [complete_ok, Host.Outcome.next.injEq] at h; exact .inl (by rw [h])
  | error c => simp only [complete_error, Host.Outcome.next.injEq] at h; exact .inr ⟨c, rfl, h.symm⟩

end Sys2Proof.Machine
end

