-- ==== Sys2Proof/Laws/Display.lean ====
section
/-! SUPPORT. Laws of the rasteriser (44_display.md R139): drawing a sprite is flipping each pixel it hits, once. -/

namespace Sys2Proof.Machine

theorem pixel_flipPixel (fb : Framebuffer) {x y px py : Nat} (hx : x < 64) (hy : y < 32) :
    pixel (flipPixel fb x y) px py = (pixel fb px py ^^ decide (px = x ∧ py = y)) := by
  have hl : fb.toList.length = 32 := by simp
  simp only [pixel, flipPixel, Vector.toList_setIfInBounds, List.getD_eq_getElem?_getD, List.getElem?_set, hl]
  by_cases h : y = py
  · subst h
    simp [hy, hx, BitVec.getLsbD_xor, BitVec.getLsbD_twoPow, eq_comm]
  · simp [h, Ne.symm h]

theorem pixel_clearFb (px py : Nat) : pixel clearFb px py = false := by
  simp only [pixel, clearFb, Vector.toList_replicate, List.getD_eq_getElem?_getD, List.getElem?_replicate]
  split <;> simp

/-- Pixels flipped one after another, the collisions gathered. -/
def drawHits : List (Nat × Nat) → Framebuffer × Bool → Framebuffer × Bool
  | [], p => p
  | h :: hs, p => drawHits hs (drawPixel h.1 h.2 p)

theorem drawHits_append (a b : List (Nat × Nat)) (p : Framebuffer × Bool) :
    drawHits (a ++ b) p = drawHits b (drawHits a p) := by
  induction a generalizing p with
  | nil => rfl
  | cons h a ih => simp [drawHits, ih]

/-- Flipping distinct pixels: each is flipped once, and a collision is a pixel that was set before. -/
theorem drawHits_spec (hs : List (Nat × Nat)) (hnd : hs.Nodup) (hin : ∀ h ∈ hs, h.1 < 64 ∧ h.2 < 32)
    (p : Framebuffer × Bool) :
    (∀ px py, pixel (drawHits hs p).1 px py = (pixel p.1 px py ^^ decide ((px, py) ∈ hs))) ∧
    ((drawHits hs p).2 = true ↔ p.2 = true ∨ ∃ h ∈ hs, pixel p.1 h.1 h.2 = true) := by
  induction hs generalizing p with
  | nil => simp [drawHits]
  | cons h hs ih =>
    obtain ⟨hx, hy⟩ := hin h (by simp)
    obtain ⟨hnotin, hnd⟩ := List.nodup_cons.1 hnd
    obtain ⟨ih1, ih2⟩ := ih hnd (fun k hk => hin k (by simp [hk])) (drawPixel h.1 h.2 p)
    constructor
    · intro px py
      rw [drawHits, ih1 px py, drawPixel, pixel_flipPixel _ hx hy]
      by_cases he : (px, py) = h
      · subst he; simp [hnotin]
      · have : ¬(px = h.1 ∧ py = h.2) := fun ⟨a, b⟩ => he (by ext <;> assumption)
        simp [this, he]
    · rw [drawHits, ih2]
      have key : ∀ k ∈ hs, pixel (drawPixel h.1 h.2 p).1 k.1 k.2 = pixel p.1 k.1 k.2 := by
        intro k hk
        have hkh : ¬(k.1 = h.1 ∧ k.2 = h.2) := fun ⟨a, b⟩ => hnotin (by rwa [← Prod.ext a b])
        rw [drawPixel, pixel_flipPixel _ hx hy]
        simp [hkh]
      simp only [drawPixel, Bool.or_eq_true, List.mem_cons, exists_eq_or_imp, or_assoc]
      constructor
      · rintro (h1 | h1 | ⟨k, hk, h1⟩)
        · exact .inl h1
        · exact .inr (.inl h1)
        · exact .inr (.inr ⟨k, hk, by rw [← key k hk]; exact h1⟩)
      · rintro (h1 | h1 | ⟨k, hk, h1⟩)
        · exact .inl h1
        · exact .inr (.inl h1)
        · exact .inr (.inr ⟨k, hk, by rw [← key k hk] at h1; exact h1⟩)

/-- The pixels a sprite byte hits on a row. -/
def rowHits (b : Byte) (x0 y : Nat) (cs : List Nat) : List (Nat × Nat) :=
  (cs.filter (fun c => b.getLsbD (7 - c))).map (fun c => ((x0 + c) % 64, y))

theorem drawRow_eq (b : Byte) (x0 y : Nat) (cs : List Nat) (p : Framebuffer × Bool) :
    drawRow b x0 y cs p = drawHits (rowHits b x0 y cs) p := by
  induction cs generalizing p with
  | nil => rfl
  | cons c cs ih =>
    rw [drawRow, ih]
    by_cases h : b.getLsbD (7 - c) <;> simp [rowHits, h, drawHits]

/-- The pixels a sprite hits, from row offset `r` on. -/
def spriteHits (x0 y0 : Nat) : Nat → List Byte → List (Nat × Nat)
  | _, [] => []
  | r, b :: bs => rowHits b x0 ((y0 + r) % 32) (List.range 8) ++ spriteHits x0 y0 (r + 1) bs

theorem drawSprite_eq (x0 y0 r : Nat) (bs : List Byte) (p : Framebuffer × Bool) :
    drawSprite x0 y0 r bs p = drawHits (spriteHits x0 y0 r bs) p := by
  induction bs generalizing r p with
  | nil => rfl
  | cons b bs ih => rw [drawSprite, ih, spriteHits, drawHits_append, drawRow_eq]

theorem mem_rowHits {b : Byte} {x0 y : Nat} {h : Nat × Nat} :
    h ∈ rowHits b x0 y (List.range 8) ↔ ∃ c, c < 8 ∧ b.getLsbD (7 - c) = true ∧ h.1 = (x0 + c) % 64 ∧ h.2 = y := by
  simp only [rowHits, List.mem_map, List.mem_filter, List.mem_range]
  constructor
  · rintro ⟨c, ⟨h1, h2⟩, rfl⟩; exact ⟨c, h1, h2, rfl, rfl⟩
  · rintro ⟨c, h1, h2, h3, h4⟩; exact ⟨c, ⟨h1, h2⟩, (Prod.ext h3 h4).symm⟩

theorem mem_spriteHits {x0 y0 : Nat} (bs : List Byte) {r : Nat} {h : Nat × Nat} :
    h ∈ spriteHits x0 y0 r bs ↔ ∃ k c, k < bs.length ∧ c < 8 ∧ (bs.getD k 0).getLsbD (7 - c) = true ∧
      h.1 = (x0 + c) % 64 ∧ h.2 = (y0 + r + k) % 32 := by
  induction bs generalizing r with
  | nil => simp [spriteHits]
  | cons b bs ih =>
    rw [spriteHits, List.mem_append, mem_rowHits, ih]
    constructor
    · rintro (⟨c, h1, h2, h3, h4⟩ | ⟨k, c, hk, h1, h2, h3, h4⟩)
      · exact ⟨0, c, by simp, h1, h2, h3, h4⟩
      · exact ⟨k + 1, c, by simpa using hk, h1, h2, h3, by rw [h4]; congr 1; omega⟩
    · rintro ⟨k, c, hk, h1, h2, h3, h4⟩
      rcases k with _ | k
      · exact .inl ⟨c, h1, h2, h3, h4⟩
      · exact .inr ⟨k, c, by simpa using hk, h1, h2, h3, by rw [h4]; congr 1; omega⟩

theorem rowHits_nodup (b : Byte) (x0 y : Nat) : (rowHits b x0 y (List.range 8)).Nodup := by
  refine List.Nodup.map_on ?_ (List.nodup_range.filter _)
  intro c hc d hd h
  simp only [List.mem_filter, List.mem_range] at hc hd
  simp only [Prod.mk.injEq, and_true] at h
  omega

theorem spriteHits_nodup (x0 y0 : Nat) (bs : List Byte) (r : Nat) (hlen : bs.length ≤ 32) :
    (spriteHits x0 y0 r bs).Nodup := by
  induction bs generalizing r with
  | nil => simp [spriteHits]
  | cons b bs ih =>
    simp only [List.length_cons] at hlen
    rw [spriteHits]
    refine List.Nodup.append (rowHits_nodup _ _ _) (ih _ (by omega)) ?_
    intro h h1 h2
    obtain ⟨c, -, -, -, e1⟩ := mem_rowHits.1 h1
    obtain ⟨k, d, hk, -, -, -, e2⟩ := (mem_spriteHits bs).1 h2
    omega

/-- What drawing a sprite of at most 32 rows does: a pixel is flipped exactly when the sprite has a 1 bit on it, and a
collision is a hit pixel that was set. -/
theorem draw_spec (fb : Framebuffer) (x0 y0 : Nat) (bs : List Byte) (hlen : bs.length ≤ 32) :
    (∀ px py, pixel (draw fb x0 y0 bs).1 px py =
      (pixel fb px py ^^ decide ((px, py) ∈ spriteHits x0 y0 0 bs))) ∧
    ((draw fb x0 y0 bs).2 = true ↔ ∃ h ∈ spriteHits x0 y0 0 bs, pixel fb h.1 h.2 = true) := by
  have hin : ∀ h ∈ spriteHits x0 y0 0 bs, h.1 < 64 ∧ h.2 < 32 := by
    intro h hh
    obtain ⟨k, c, -, -, -, e1, e2⟩ := (mem_spriteHits bs).1 hh
    omega
  have := drawHits_spec _ (spriteHits_nodup x0 y0 bs 0 hlen) hin (fb, false)
  simpa [draw, drawSprite_eq] using this

end Sys2Proof.Machine
end

