-- ==== Sys2Proof/Laws/Cycle.lean ====
section
/-! SUPPORT. Laws of the step: what it can do, said once. -/

namespace Sys2Proof.Machine

theorem fetchable_iff (pc : Word) : fetchable pc = true ↔ 0x200 ≤ pc.toNat ∧ pc.toNat ≤ 0xFFE := by simp [fetchable]

/-- On the CPU's turn, while the run has not ended, a step is the CPU step of the granted state. -/
theorem step_cpu {s : State} (h : CpuTurn s) (hs : s.status = .running ∨ s.status = .waitingKey) :
    step s =
      if s.run then (if s.status = .waitingKey then .next s.granted.poll else instructionStep s.granted)
      else .next s.granted.stop := by
  have he : ({ s with pending := s.pending.tail } : State).ended = false := by
    rcases hs with hs | hs <;> simp [State.ended, hs]
  have : step s = cpuStep { s with pending := s.pending.tail } := by
    rcases h with h | ⟨rest, h⟩
    · simp only [step, nextAction, h, List.tail_nil]
      congr 1; rw [← h]
    · simp only [step, nextAction, h, boundaryEvent, List.tail_cons] at he ⊢
      simp [he]
  rw [this, cpuStep]
  rcases hs with hs | hs <;> simp [hs, State.granted, State.closeLoad]

/-- What an instruction step does: it fetches outside the window, finds an INVALID word, or executes. -/
theorem instructionStep_cases (s : State) :
    (fetchable s.pc = false ∧ instructionStep s = .next (s.raise .fetchRange 0x0000 s.pc)) ∨
    (fetchable s.pc = true ∧ (∀ i, decodeWord s.fetchWord ≠ .ok i) ∧
      instructionStep s = .next (s.raise .invalidOpcode s.fetchWord s.pc)) ∨
    (∃ i, fetchable s.pc = true ∧ decodeWord s.fetchWord = .ok i ∧ instructionStep s = exec i s) := by
  unfold instructionStep
  cases hf : fetchable s.pc
  · exact .inl ⟨rfl, by simp⟩
  · cases hd : decodeWord s.fetchWord with
    | error e => exact .inr (.inl ⟨rfl, by simp, by simp⟩)
    | ok i => exact .inr (.inr ⟨i, rfl, rfl, by simp⟩)

/-- Every instruction answers a next state. -/
theorem exec_next (i : Instr) (s : State) : ∃ t, exec i s = .next t := by
  have hc : ∀ (j : Instr) (r : Except Cause State), ∃ t, s.complete j r = .next t := by
    intro j r; cases r <;> exact ⟨_, rfl⟩
  cases i <;> first | exact ⟨_, rfl⟩ | exact hc _ _

/-- What a step that answers a next state has done. -/
theorem step_cases {s t : State} (h : step s = .next t) :
    (CpuTurn s ∧ (s.status = .running ∨ s.status = .waitingKey) ∧ s.run = false ∧ t = s.granted.stop) ∨
    (CpuTurn s ∧ s.status = .waitingKey ∧ s.run = true ∧ t = s.granted.poll) ∨
    (CpuTurn s ∧ s.status = .running ∧ s.run = true ∧ instructionStep s.granted = .next t) ∨
    (∃ rest, s.pending = .step :: rest ∧ (s.status = .stopped ∨ s.status = .faulted) ∧ t = { s with pending := rest }) ∨
    (∃ rest, s.pending = .tick :: rest ∧ t = State.timerTick { s with pending := rest }) ∨
    (∃ mask rest, s.pending = .keys mask :: rest ∧ t = { s with pending := rest, keys := mask }) ∨
    (∃ flag rest, s.pending = .run flag :: rest ∧ t = { s with pending := rest, run := flag }) ∨
    (∃ rest, s.pending = .reset :: rest ∧ t = State.afterReset { s with pending := rest }) ∨
    (∃ image rest, s.pending = .load image :: rest ∧ State.load { s with pending := rest } image = .next t) := by
  have cpu : CpuTurn s → (s.status = .running ∨ s.status = .waitingKey) →
      (CpuTurn s ∧ (s.status = .running ∨ s.status = .waitingKey) ∧ s.run = false ∧ t = s.granted.stop) ∨
      (CpuTurn s ∧ s.status = .waitingKey ∧ s.run = true ∧ t = s.granted.poll) ∨
      (CpuTurn s ∧ s.status = .running ∧ s.run = true ∧ instructionStep s.granted = .next t) := by
    intro hc hs
    rw [step_cpu hc hs] at h
    cases hr : s.run
    · simp only [hr, Bool.false_eq_true, if_false, Host.Outcome.next.injEq] at h
      exact .inl ⟨hc, hs, rfl, h.symm⟩
    · rcases hs with hs | hs
      · simp only [hr, hs, if_true, reduceCtorEq, if_false] at h
        exact .inr (.inr ⟨hc, hs, rfl, h⟩)
      · simp only [hr, hs, if_true, Host.Outcome.next.injEq] at h
        exact .inr (.inl ⟨hc, hs, rfl, h.symm⟩)
  have widen : ∀ {A B C D : Prop}, (A ∨ B ∨ C) → (A ∨ B ∨ C ∨ D) := by
    rintro A B C D (h | h | h) <;> simp [h]
  have live : (s.status = .running ∨ s.status = .waitingKey) ∨ (s.status = .stopped ∨ s.status = .faulted) := by
    cases s.status <;> simp
  cases hp : s.pending with
  | nil =>
    rcases live with hst | hst
    · exact hp ▸ widen (cpu (.inl hp) hst)
    · rcases hst with hst | hst <;> simp [step, nextAction, hp, cpuStep, hst] at h
  | cons e rest =>
    cases e with
    | step =>
      rcases live with hst | hst
      · exact hp ▸ widen (cpu (.inr ⟨rest, hp⟩) hst)
      · have he : ({ s with pending := rest } : State).ended = true := by
          rcases hst with hst | hst <;> simp [State.ended, hst]
        simp only [step, nextAction, hp, boundaryEvent, he, if_true, Host.Outcome.next.injEq] at h
        exact .inr (.inr (.inr (.inl ⟨rest, rfl, hst, h.symm⟩)))
    | tick =>
      simp only [step, nextAction, hp, boundaryEvent, Host.Outcome.next.injEq] at h
      exact .inr (.inr (.inr (.inr (.inl ⟨rest, rfl, h.symm⟩))))
    | keys mask =>
      simp only [step, nextAction, hp, boundaryEvent, Host.Outcome.next.injEq] at h
      exact .inr (.inr (.inr (.inr (.inr (.inl ⟨mask, rest, rfl, h.symm⟩)))))
    | run flag =>
      simp only [step, nextAction, hp, boundaryEvent, Host.Outcome.next.injEq] at h
      exact .inr (.inr (.inr (.inr (.inr (.inr (.inl ⟨flag, rest, rfl, h.symm⟩))))))
    | reset =>
      simp only [step, nextAction, hp, boundaryEvent, Host.Outcome.next.injEq] at h
      exact .inr (.inr (.inr (.inr (.inr (.inr (.inr (.inl ⟨rest, rfl, h.symm⟩)))))))
    | load image =>
      simp only [step, nextAction, hp, boundaryEvent] at h
      exact .inr (.inr (.inr (.inr (.inr (.inr (.inr (.inr ⟨image, rest, rfl, h⟩)))))))

/-- A load answers a next state only in its window: the image is copied, or it is too large. -/
theorem load_cases {s t : State} {image : List Byte} (h : s.load image = .next t) :
    s.loadOpen = true ∧
      ((image.length ≤ 3584 ∧ t = { s with loadOpen := false, mem := writeBytes s.mem 0x200 image }) ∨
       (3584 < image.length ∧ t = State.raise { s with loadOpen := false } .loadOverflow 0x0000 0x0200)) := by
  unfold State.load at h
  split at h
  · refine ⟨‹_›, ?_⟩
    simp only [Config.maxImage, Config.progBase] at h
    split at h
    · exact .inl ⟨‹_›, by cases h; rfl⟩
    · exact .inr ⟨by omega, by cases h; rfl⟩
  · cases h

/-- A poll ends the wait with the lowest fresh key, or takes a sample (40_cycle.md R99). -/
theorem poll_cases (s : State) :
    (∃ k, k < 16 ∧ (s.keys &&& ~~~s.prevKeys).getLsbD k = true ∧
      (∀ j, j < k → (s.keys &&& ~~~s.prevKeys).getLsbD j = false) ∧
      s.poll = { s.setV s.waitReg (BitVec.ofNat 8 k) with status := .running }) ∨
    ((∀ k, k < 16 → (s.keys &&& ~~~s.prevKeys).getLsbD k = false) ∧ s.poll = { s with prevKeys := s.keys }) := by
  unfold State.poll lowestKey
  cases hf : (List.range Config.numKeys).find? (fun k => (s.keys &&& ~~~s.prevKeys).getLsbD k) with
  | none =>
    refine .inr ⟨fun k hk => ?_, rfl⟩
    have := List.find?_eq_none.1 hf k (by simpa using hk)
    simpa using this
  | some k =>
    obtain ⟨h1, as, bs, h2, h3⟩ := List.find?_eq_some_iff_append.1 hf
    have hk : k ∈ List.range Config.numKeys := by rw [h2]; simp
    refine .inl ⟨k, by simpa using hk, h1, fun j hj => ?_, rfl⟩
    have hr := List.pairwise_lt_range (n := Config.numKeys)
    rw [h2, List.pairwise_append] at hr
    have hjm : j ∈ as ++ k :: bs := by
      rw [← h2]; simp at hk ⊢; omega
    rcases List.mem_append.1 hjm with hj' | hj'
    · simpa [imp_iff_not_or] using h3 j hj'
    · rcases List.mem_cons.1 hj' with rfl | hj'
      · omega
      · have := (List.pairwise_cons.1 hr.2.1).1 j hj'
        omega

end Sys2Proof.Machine
end

