-- ==== Sys2Proof/Laws/Decode.lean ====
section
/-! SUPPORT. Laws of the encoding: the fields of a word put together from fields, and the opcode map's rows. -/

namespace Sys2Proof

/-! ### Fields of a concatenation (00_scope.md R10) -/

theorem extract_low {m n : Nat} (a : BitVec m) (b : BitVec n) (k len : Nat) (h : k + len ≤ n) :
    (a ++ b).extractLsb' k len = b.extractLsb' k len := by
  apply BitVec.eq_of_getLsbD_eq
  intro i hi
  have : k + i < n := by omega
  simp [BitVec.getLsbD_append, this]

theorem extract_high {m n : Nat} (a : BitVec m) (b : BitVec n) (k len : Nat) :
    (a ++ b).extractLsb' (n + k) len = a.extractLsb' k len := by
  apply BitVec.eq_of_getLsbD_eq
  intro i hi
  have h1 : ¬(n + k + i < n) := by omega
  have h2 : n + k + i - n = k + i := by omega
  simp [BitVec.getLsbD_append, h1, h2]

theorem extract_all {n : Nat} (a : BitVec n) : a.extractLsb' 0 n = a := by
  apply BitVec.eq_of_getLsbD_eq
  intro i hi
  simp [hi]

/-! ### Format XKK and S8, XS8: op, x, low byte (30_encoding.md R80) -/

section
variable (o x : BitVec 4) (kk : Byte)

@[simp] theorem fieldOp_xkk : fieldOp (o ++ x ++ kk) = o :=
  (extract_high (o ++ x) kk 4 4).trans ((extract_high o x 0 4).trans (extract_all o))

@[simp] theorem fieldX_xkk : fieldX (o ++ x ++ kk) = x :=
  (extract_high (o ++ x) kk 0 4).trans ((extract_low o x 0 4 (by decide)).trans (extract_all x))

@[simp] theorem fieldKk_xkk : fieldKk (o ++ x ++ kk) = kk :=
  (extract_low (o ++ x) kk 0 8 (by decide)).trans (extract_all kk)
end

/-! ### Format NNN: op, nnn -/

section
variable (o : BitVec 4) (nnn : Addr12)

@[simp] theorem fieldOp_nnn : fieldOp (o ++ nnn) = o :=
  (extract_high o nnn 0 4).trans (extract_all o)

@[simp] theorem fieldNnn_nnn : fieldNnn (o ++ nnn) = nnn :=
  (extract_low o nnn 0 12 (by decide)).trans (extract_all nnn)
end

/-! ### Formats XYS and XYN: op, x, y, low nibble -/

section
variable (o x y n : BitVec 4)

@[simp] theorem fieldOp_xyn : fieldOp (o ++ x ++ y ++ n) = o :=
  (extract_high (o ++ x ++ y) n 8 4).trans ((extract_high (o ++ x) y 4 4).trans
    ((extract_high o x 0 4).trans (extract_all o)))

@[simp] theorem fieldX_xyn : fieldX (o ++ x ++ y ++ n) = x :=
  (extract_high (o ++ x ++ y) n 4 4).trans ((extract_high (o ++ x) y 0 4).trans
    ((extract_low o x 0 4 (by decide)).trans (extract_all x)))

@[simp] theorem fieldY_xyn : fieldY (o ++ x ++ y ++ n) = y :=
  (extract_high (o ++ x ++ y) n 0 4).trans ((extract_low (o ++ x) y 0 4 (by decide)).trans (extract_all y))

@[simp] theorem fieldN_xyn : fieldN (o ++ x ++ y ++ n) = n :=
  (extract_low (o ++ x ++ y) n 0 4 (by decide)).trans (extract_all n)
end

/-! ### A word is its fields -/

theorem xkk_eta (w : Word) : (fieldOp w ++ fieldX w ++ fieldKk w : Word) = w := by
  apply BitVec.eq_of_toNat_eq
  have h : ∀ a b c : Nat, b < 16 → c < 256 → ((a <<< 4 ||| b) <<< 8 ||| c) = (a * 16 + b) * 256 + c := by
    intro a b c hb hc
    rw [← Nat.shiftLeft_add_eq_or_of_lt (by simpa using hc), ← Nat.shiftLeft_add_eq_or_of_lt (by simpa using hb)]
    simp [Nat.shiftLeft_eq]
  show (fieldOp w ++ fieldX w ++ fieldKk w).toNat = w.toNat
  rw [BitVec.toNat_append, BitVec.toNat_append, h _ _ _ (fieldX w).isLt (fieldKk w).isLt]
  have := w.isLt
  simp only [fieldOp, fieldX, fieldKk, BitVec.extractLsb'_toNat, Nat.shiftRight_eq_div_pow]
  omega

/-! ### The opcode map (30_encoding.md R83, R84) -/

/-- No word matches two rows: every two rows differ on a bit that both masks select. -/
theorem opcodeMap_disjoint :
    opcodeMap.Pairwise (fun r q => (r.pattern ^^^ q.pattern) &&& r.mask &&& q.mask ≠ 0) := by decide

theorem opcodeMap_length : opcodeMap.length = 34 := by decide

/-- A pattern has no bit outside its mask. -/
theorem opcodeMap_patterns : ∀ r ∈ opcodeMap, r.pattern &&& r.mask = r.pattern := by decide

/-! ### Masking a word written field by field -/

theorem and_cat {m n : Nat} {a c e : BitVec m} {b d f : BitVec n} (h1 : a &&& c = e) (h2 : b &&& d = f) :
    (a ++ b) &&& (c ++ d) = e ++ f := by
  rw [BitVec.and_append, h1, h2]

theorem and_F (a : BitVec 4) : a &&& 0xF#4 = a := BitVec.and_allOnes
theorem and_FF (a : BitVec 8) : a &&& 0xFF#8 = a := BitVec.and_allOnes

theorem mask_op_nnn (o : BitVec 4) (nnn : Addr12) : ((o ++ nnn : Word) &&& 0xF000#16) = (o ++ 0#12 : Word) :=
  and_cat (c := 0xF#4) (d := 0#12) (and_F o) BitVec.and_zero

theorem mask_op_xkk (o x : BitVec 4) (kk : Byte) :
    ((o ++ x ++ kk : Word) &&& 0xF000#16) = (o ++ 0#4 ++ 0#8 : Word) :=
  and_cat (c := 0xF#4 ++ 0#4) (d := 0#8) (and_cat (and_F o) BitVec.and_zero) BitVec.and_zero

theorem mask_opkk_xkk (o x : BitVec 4) (kk : Byte) :
    ((o ++ x ++ kk : Word) &&& 0xF0FF#16) = (o ++ 0#4 ++ kk : Word) :=
  and_cat (c := 0xF#4 ++ 0#4) (d := 0xFF#8) (and_cat (and_F o) BitVec.and_zero) (and_FF kk)

theorem mask_op_xyn (o x y n : BitVec 4) :
    ((o ++ x ++ y ++ n : Word) &&& 0xF000#16) = (o ++ 0#4 ++ 0#4 ++ 0#4 : Word) :=
  and_cat (c := 0xF#4 ++ 0#4 ++ 0#4) (d := 0#4)
    (and_cat (and_cat (and_F o) BitVec.and_zero) BitVec.and_zero) BitVec.and_zero

theorem mask_opn_xyn (o x y n : BitVec 4) :
    ((o ++ x ++ y ++ n : Word) &&& 0xF00F#16) = (o ++ 0#4 ++ 0#4 ++ n : Word) :=
  and_cat (c := 0xF#4 ++ 0#4 ++ 0#4) (d := 0xF#4)
    (and_cat (and_cat (and_F o) BitVec.and_zero) BitVec.and_zero) (and_F n)

/-- Every instruction's row is one of the map's. -/
theorem row_mem (i : Instr) : i.row ∈ opcodeMap := by
  cases i <;> simp [opcodeMap, rowSamples, rowSamples07, rowSamples8, rowSamples9E, rowSamplesF, Instr.row]

end Sys2Proof
end

