-- ==== Sys2Proof/Laws/PerInstr.lean ====
section
/-! SUPPORT. The statements made per instruction: the word of every instruction is one of its row of the opcode map. -/

namespace Sys2Proof.Laws.WordFitsRow

/-- The bits that the mask of the instruction's row selects are the row's pattern (30_encoding.md R83, R84). -/
def Statement (i : Sys2Proof.Instr) : Prop := i.row.hasWord (Sys2Proof.encode i) = true

theorem of_masked {r : Sys2Proof.OpcodeRow} {w : Sys2Proof.Word} (h : w &&& r.mask = r.pattern) : r.hasWord w = true := by
  simp [Sys2Proof.OpcodeRow.hasWord, h]

open Sys2Proof

theorem cls (z : Nibble) : Statement (.cls z) := of_masked (mask_opkk_xkk _ z _)

theorem ret (z : Nibble) : Statement (.ret z) := of_masked (mask_opkk_xkk _ z _)

theorem jp (nnn : Addr12) : Statement (.jp nnn) := of_masked (mask_op_nnn _ nnn)

theorem call (nnn : Addr12) : Statement (.call nnn) := of_masked (mask_op_nnn _ nnn)

theorem seKk (x : Reg) (kk : Byte) : Statement (.seKk x kk) := of_masked (mask_op_xkk _ x kk)

theorem sneKk (x : Reg) (kk : Byte) : Statement (.sneKk x kk) := of_masked (mask_op_xkk _ x kk)

theorem seXy (x y : Reg) (z : Nibble) : Statement (.seXy x y z) := of_masked (mask_op_xyn _ x y z)

theorem ldKk (x : Reg) (kk : Byte) : Statement (.ldKk x kk) := of_masked (mask_op_xkk _ x kk)

theorem addKk (x : Reg) (kk : Byte) : Statement (.addKk x kk) := of_masked (mask_op_xkk _ x kk)

theorem ldXy (x y : Reg) : Statement (.ldXy x y) := of_masked (mask_opn_xyn _ x y _)

theorem orXy (x y : Reg) : Statement (.orXy x y) := of_masked (mask_opn_xyn _ x y _)

theorem andXy (x y : Reg) : Statement (.andXy x y) := of_masked (mask_opn_xyn _ x y _)

theorem xorXy (x y : Reg) : Statement (.xorXy x y) := of_masked (mask_opn_xyn _ x y _)

theorem addXy (x y : Reg) : Statement (.addXy x y) := of_masked (mask_opn_xyn _ x y _)

theorem subXy (x y : Reg) : Statement (.subXy x y) := of_masked (mask_opn_xyn _ x y _)

theorem shr (x : Reg) (z : Nibble) : Statement (.shr x z) := of_masked (mask_opn_xyn _ x z _)

theorem subnXy (x y : Reg) : Statement (.subnXy x y) := of_masked (mask_opn_xyn _ x y _)

theorem shl (x : Reg) (z : Nibble) : Statement (.shl x z) := of_masked (mask_opn_xyn _ x z _)

theorem sneXy (x y : Reg) (z : Nibble) : Statement (.sneXy x y z) := of_masked (mask_op_xyn _ x y z)

theorem ldI (nnn : Addr12) : Statement (.ldI nnn) := of_masked (mask_op_nnn _ nnn)

theorem jpV0 (nnn : Addr12) : Statement (.jpV0 nnn) := of_masked (mask_op_nnn _ nnn)

theorem rnd (x : Reg) (kk : Byte) : Statement (.rnd x kk) := of_masked (mask_op_xkk _ x kk)

theorem drw (x y : Reg) (n : Nibble) : Statement (.drw x y n) := of_masked (mask_op_xyn _ x y n)

theorem skp (x : Reg) : Statement (.skp x) := of_masked (mask_opkk_xkk _ x _)

theorem sknp (x : Reg) : Statement (.sknp x) := of_masked (mask_opkk_xkk _ x _)

theorem ldVxDt (x : Reg) : Statement (.ldVxDt x) := of_masked (mask_opkk_xkk _ x _)

theorem ldVxK (x : Reg) : Statement (.ldVxK x) := of_masked (mask_opkk_xkk _ x _)

theorem ldDtVx (x : Reg) : Statement (.ldDtVx x) := of_masked (mask_opkk_xkk _ x _)

theorem ldStVx (x : Reg) : Statement (.ldStVx x) := of_masked (mask_opkk_xkk _ x _)

theorem addI (x : Reg) : Statement (.addI x) := of_masked (mask_opkk_xkk _ x _)

theorem ldF (x : Reg) : Statement (.ldF x) := of_masked (mask_opkk_xkk _ x _)

theorem ldB (x : Reg) : Statement (.ldB x) := of_masked (mask_opkk_xkk _ x _)

theorem ldStore (x : Reg) : Statement (.ldStore x) := of_masked (mask_opkk_xkk _ x _)

theorem ldLoad (x : Reg) : Statement (.ldLoad x) := of_masked (mask_opkk_xkk _ x _)

end Sys2Proof.Laws.WordFitsRow
end

