-- ==== Sys2Proof/Tests/Slice0.lean ====
section
/-! SUPPORT. Tests, and a witness for the hypotheses of each statement. Expected results are the spec's: the examples of
the rules and the vectors of 95_test_vectors.md, named by section. -/

namespace Sys2Proof.Tests

open Sys2Proof Sys2Proof.Machine

/-! ## Helpers -/

/-- The state one step after the word is placed at the next fetch; `s` itself if the step answers no state. -/
def after (w : Nat) (s : State) : State :=
  match step (s.withFetchWord 16 w) with
  | .next t => t
  | _ => s

/-- The state one step on; `s` itself if the step answers no state. -/
def next (s : State) : State :=
  match step s with
  | .next t => t
  | _ => s

/-- Reset, with V0 and V1. -/
def regs (a b : Byte) : State := (State.reset.setV 0 a).setV 1 b

/-- Reset, with I. -/
def atI (a : Word) : State := State.reset.setI a

/-- Reset, with these events pending. -/
def events (es : List Event) : State := { State.reset with pending := es }

/-- Reset, with this status. -/
def inStatus (st : Status) : State := { State.reset with status := st }

/-- Reset, with this word at 0x200. -/
def withWord (w : Nat) : State := State.reset.withFetchWord 16 w

/-! ## Well-formedness: an ill-formed line for each check (30_encoding.md R75-R79, R89) -/

theorem test_line_of_scenario : AsmLine.wellFormed ⟨.LD, [.reg 0, .num 5]⟩ = true := by decide
theorem test_refuses_register_16 : AsmLine.wellFormed ⟨.LD, [.reg 16, .num 5]⟩ = false := by decide
theorem test_refuses_immediate_256 : AsmLine.wellFormed ⟨.ADD, [.reg 0, .num 256]⟩ = false := by decide
theorem test_refuses_address_4096 : AsmLine.wellFormed ⟨.CALL, [.num 4096]⟩ = false := by decide
theorem test_refuses_count_16 : AsmLine.wellFormed ⟨.DRW, [.reg 0, .reg 1, .num 16]⟩ = false := by decide
theorem test_refuses_wrong_operands : AsmLine.wellFormed ⟨.CLS, [.reg 0]⟩ = false := by decide
theorem test_refuses_indexed_jump_by_V1 : AsmLine.wellFormed ⟨.JP, [.reg 1, .num 5]⟩ = false := by decide
theorem test_assembles_only_well_formed : AsmLine.assemble ⟨.CALL, [.num 4096]⟩ = none := by decide
/-- R89 writes "LD V0,0x05"; `SHR Vx,Vy` puts `y` in bits 7:4. -/
theorem test_text_of_scenario : (Instr.ldKk 0 5).toAsm.text = ['L', 'D', ' ', 'V', '0', ',', '0', 'x', '0', '5'] := by
  decide
theorem test_reads_decimal_and_block_operand :
    readLine ['L', 'D', ' ', '[', 'I', ']', ',', 'V', 'A'] = some ⟨.LD, [.atIndex, .reg 10]⟩ ∧
    readLine ['J', 'P', ' ', '5', '1', '2'] = some ⟨.JP, [.num 512]⟩ := by decide
theorem test_shr_second_register : AsmLine.assemble ⟨.SHR, [.reg 1, .reg 2]⟩ = some (.shr 1 2) := by decide

/-! ## Decoding: a word written from R84 for every constructor -/

theorem test_decode_class_0_to_7 :
    decodeWord 0x00E0 = .ok (.cls 0) ∧ decodeWord 0x0AEE = .ok (.ret 0xA) ∧ decodeWord 0x1ABC = .ok (.jp 0xABC) ∧
    decodeWord 0x2300 = .ok (.call 0x300) ∧ decodeWord 0x3342 = .ok (.seKk 3 0x42) ∧
    decodeWord 0x4342 = .ok (.sneKk 3 0x42) ∧ decodeWord 0x5121 = .ok (.seXy 1 2 1) ∧
    decodeWord 0x6108 = .ok (.ldKk 1 0x08) ∧ decodeWord 0x7102 = .ok (.addKk 1 0x02) := by decide
theorem test_decode_class_8 :
    decodeWord 0x8120 = .ok (.ldXy 1 2) ∧ decodeWord 0x8121 = .ok (.orXy 1 2) ∧ decodeWord 0x8122 = .ok (.andXy 1 2) ∧
    decodeWord 0x8123 = .ok (.xorXy 1 2) ∧ decodeWord 0x8014 = .ok (.addXy 0 1) ∧ decodeWord 0x8125 = .ok (.subXy 1 2) ∧
    decodeWord 0x8126 = .ok (.shr 1 2) ∧ decodeWord 0x8127 = .ok (.subnXy 1 2) ∧ decodeWord 0x812E = .ok (.shl 1 2) := by
  decide
theorem test_decode_class_9_to_E :
    decodeWord 0x9AB7 = .ok (.sneXy 0xA 0xB 7) ∧ decodeWord 0xA123 = .ok (.ldI 0x123) ∧
    decodeWord 0xB300 = .ok (.jpV0 0x300) ∧ decodeWord 0xC50F = .ok (.rnd 5 0x0F) ∧ decodeWord 0xD125 = .ok (.drw 1 2 5) ∧
    decodeWord 0xE59E = .ok (.skp 5) ∧ decodeWord 0xE5A1 = .ok (.sknp 5) := by decide
theorem test_decode_class_F :
    decodeWord 0xF307 = .ok (.ldVxDt 3) ∧ decodeWord 0xF20A = .ok (.ldVxK 2) ∧ decodeWord 0xF415 = .ok (.ldDtVx 4) ∧
    decodeWord 0xF118 = .ok (.ldStVx 1) ∧ decodeWord 0xF21E = .ok (.addI 2) ∧ decodeWord 0xF929 = .ok (.ldF 9) ∧
    decodeWord 0xF833 = .ok (.ldB 8) ∧ decodeWord 0xF255 = .ok (.ldStore 2) ∧ decodeWord 0xFF65 = .ok (.ldLoad 15) := by
  decide
/-- 95_test_vectors.md 2.1. -/
theorem test_decode_invalid :
    [0x0000, 0x0123, 0x0560, 0x8008, 0x800F, 0xE000, 0xF000, 0xF11F].all
      (fun w => decodeWord w == .error (.invalidOpcode w)) = true := by decide
/-- The lower-addressed byte is the high one (20_memory.md R56), and one byte is no instruction (R73). -/
theorem test_decode_bytes :
    decode [0x60, 0x05, 0x61] = .ok (.ldKk 0 5, [0x61]) ∧ decode [0x60] = .error .truncated ∧
    decodeTableWord 16 0x6005 = some (.ldKk 0 5) := by decide

/-! ## Control transfer (95_test_vectors.md 2.2) -/

theorem test_ret : (after 0x00EE ((State.reset.push 0x0456).toOption.getD State.reset)).pc = 0x0456 := by decide
theorem test_ret_underflow :
    (after 0x00EE State.reset).fault = ⟨.stackUnderflow, 0x00EE, 0x0200⟩ ∧ (after 0x00EE State.reset).pc = 0x0200 := by
  decide
theorem test_jp : (after 0x1ABC State.reset).pc = 0x0ABC := by decide
theorem test_call :
    (after 0x2300 State.reset).pc = 0x0300 ∧ (after 0x2300 State.reset).sp = 1 ∧
    (after 0x2300 State.reset).slot 1 = 0x0202 := by decide
theorem test_call_overflow :
    (after 0x2300 { State.reset with sp := 16 }).fault = ⟨.stackOverflow, 0x2300, 0x0200⟩ ∧
    (after 0x2300 { State.reset with sp := 15 }).slot 16 = 0x0202 := by decide
theorem test_se_kk : (after 0x3042 (regs 0x42 0)).pc = 0x204 ∧ (after 0x3043 (regs 0x42 0)).pc = 0x202 := by decide
theorem test_sne_kk : (after 0x4042 (regs 0x42 0)).pc = 0x202 ∧ (after 0x4043 (regs 0x42 0)).pc = 0x204 := by decide
theorem test_se_xy : (after 0x5017 (regs 9 9)).pc = 0x204 ∧ (after 0x5010 (regs 9 8)).pc = 0x202 := by decide
theorem test_sne_xy : (after 0x9010 (regs 9 9)).pc = 0x202 ∧ (after 0x901F (regs 9 8)).pc = 0x204 := by decide
theorem test_jp_v0 : (after 0xB300 (regs 0x04 0)).pc = 0x304 ∧ (after 0xBFFF (regs 0xFF 0)).pc = 0x10FE := by decide

/-! ## ALU (95_test_vectors.md 1, 2.3) -/

theorem test_ld_kk : (after 0x6005 State.reset).getV 0 = 0x05 := by decide
theorem test_add_kk : (after 0x7001 (regs 0xFF 0)).getV 0 = 0 ∧ (after 0x7001 (regs 0xFF 0)).getV VF = 0 := by decide
theorem test_ld_xy : (after 0x8010 (regs 0x12 0x34)).getV 0 = 0x34 := by decide
theorem test_or : (after 0x8011 (regs 0x0F 0xF0)).getV 0 = 0xFF := by decide
theorem test_and : (after 0x8012 (regs 0x3C 0x0F)).getV 0 = 0x0C := by decide
theorem test_xor : (after 0x8013 (regs 0xFF 0x0F)).getV 0 = 0xF0 := by decide
theorem test_add_xy : (after 0x8014 (regs 0xC8 0x64)).getV 0 = 0x2C ∧ (after 0x8014 (regs 0xC8 0x64)).getV VF = 1 := by
  decide
theorem test_add_to_VF : (after 0x8F14 ((regs 0 1).setV VF 0xFF)).getV VF = 1 := by decide
theorem test_sub : (after 0x8015 (regs 3 5)).getV 0 = 0xFE ∧ (after 0x8015 (regs 7 7)).getV VF = 1 := by decide
theorem test_sub_from_VF : (after 0x8F05 ((regs 3 0).setV VF 5)).getV VF = 2 := by decide
theorem test_shr : (after 0x8016 (regs 0x05 0xFF)).getV 0 = 2 ∧ (after 0x8016 (regs 0x05 0xFF)).getV VF = 1 := by decide
theorem test_shr_VF : (after 0x8F06 (State.reset.setV VF 6)).getV VF = 3 := by decide
theorem test_subn : (after 0x8017 (regs 5 3)).getV 0 = 0xFE ∧ (after 0x8017 (regs 3 5)).getV VF = 1 := by decide
theorem test_subn_VF : (after 0x8F07 ((regs 5 0).setV VF 3)).getV VF = 2 := by decide
theorem test_shl : (after 0x801E (regs 0x81 0)).getV 0 = 2 ∧ (after 0x801E (regs 0x81 0)).getV VF = 1 := by decide
theorem test_shl_VF : (after 0x8F0E (State.reset.setV VF 0x81)).getV VF = 2 := by decide
theorem test_rnd :
    (after 0xC00F { State.reset with rnd := [0xA5, 0x3C] }).getV 0 = 0x05 ∧
    (after 0xC00F { State.reset with rnd := [0xA5, 0x3C] }).rnd = [0x3C] := by decide

/-! ## Index and memory (95_test_vectors.md 2.4) -/

theorem test_ld_I : (after 0xA123 State.reset).i = 0x0123 := by decide
theorem test_add_I :
    (after 0xF01E ((atI 0xFFFF).setV 0 1)).i = 0 ∧ (after 0xF01E ((atI 0x0FFF).setV 0 1)).i = 0x1000 := by decide
theorem test_ld_F : (after 0xF029 (regs 0x1A 0)).i = 0x0032 := by decide
theorem test_ld_B : readBytes (after 0xF033 ((atI 0x300).setV 0 0xFE)).mem 0x300 3 = [2, 5, 4] := by decide
theorem test_ld_B_range :
    (after 0xF033 (atI 0xFFE)).fault = ⟨.addressRange, 0xF033, 0x0200⟩ ∧ (after 0xF033 (atI 0xFFD)).status = .running := by
  decide
theorem test_ld_store : readBytes (after 0xF155 ((regs 1 2).setI 0x300)).mem 0x2FF 4 = [0, 1, 2, 0] := by decide
theorem test_ld_store_range :
    (after 0xFF55 (atI 0xFF1)).status = .faulted ∧ (after 0xFF55 (atI 0xFF0)).status = .running := by decide
/-- The font of digit 0 is read from 0x000. -/
theorem test_ld_load :
    (after 0xF465 State.reset).getV 0 = 0xF0 ∧ (after 0xF465 State.reset).getV 4 = 0xF0 ∧
    (after 0xF465 State.reset).getV 3 = 0x90 ∧ (after 0xF465 (State.reset.setV 5 7)).getV 5 = 7 := by decide
theorem test_ld_load_range : (after 0xF565 (atI 0xFFC)).fault.cause = .addressRange := by decide

/-! ## Display (95_test_vectors.md 2.5) -/

/-- The pixels that are set, row by row. -/
def lit (s : State) : List (Nat × Nat) :=
  (List.range 32).flatMap (fun y => ((List.range 64).filter (fun x => pixel s.fb x y)).map (fun x => (x, y)))

theorem test_cls : (after 0x00E0 (after 0xD015 State.reset)).fb = clearFb := by decide
/-- DS1: glyph 0 at the origin. -/
theorem test_drw_glyph :
    lit (after 0xD015 State.reset) =
      [(0, 0), (1, 0), (2, 0), (3, 0), (0, 1), (3, 1), (0, 2), (3, 2), (0, 3), (3, 3), (0, 4), (1, 4), (2, 4), (3, 4)] ∧
    (after 0xD015 State.reset).getV VF = 0 := by decide
/-- DS2: the same glyph again erases it, with a collision. -/
theorem test_drw_twice :
    (after 0xD015 (after 0xD015 State.reset)).fb = clearFb ∧ (after 0xD015 (after 0xD015 State.reset)).getV VF = 1 := by decide +kernel

/-! ## Keys and timers (95_test_vectors.md 2.6) -/

theorem test_skp : (after 0xE09E { regs 0x13 0 with keys := 0x0008 }).pc = 0x204 ∧ (after 0xE09E (regs 4 0)).pc = 0x202 := by
  decide
theorem test_sknp : (after 0xE0A1 { regs 4 0 with keys := 0x0010 }).pc = 0x202 ∧ (after 0xE0A1 (regs 4 0)).pc = 0x204 := by
  decide
theorem test_ld_DT : (after 0xF307 (State.reset.setDt 0x3C)).getV 3 = 0x3C := by decide
theorem test_ld_K :
    (after 0xF20A State.reset).status = .waitingKey ∧ (after 0xF20A State.reset).waitReg = 2 ∧
    (after 0xF20A State.reset).pc = 0x202 := by decide
/-- The lowest new key is taken; a key held at entry does not count. -/
theorem test_poll :
    (next { after 0xF20A State.reset with keys := 0x0120 }).getV 2 = 5 ∧
    (next { after 0xF20A State.reset with keys := 0x0001, prevKeys := 0x0001 }).status = .waitingKey := by decide
theorem test_set_DT : (after 0xF015 (regs 0x3C 0)).dt = 0x3C := by decide
theorem test_set_ST : (after 0xF018 (regs 2 0)).st = 2 ∧ (after 0xF018 (regs 2 0)).tonePort = true := by decide
theorem test_tick :
    (next { events [.tick] with dt := 5, st := 0 }).dt = 4 ∧ (next { events [.tick] with dt := 5, st := 0 }).st = 0 ∧
    (next { events [.tick] with dt := 2, status := .faulted }).dt = 2 := by decide

/-! ## Step, load and reset (95_test_vectors.md 1, 2.7) -/

/-- The word 0x0000 that a cleared memory holds is INVALID (E1, fifth step). -/
theorem test_step_from_reset : (next State.reset).fault = ⟨.invalidOpcode, 0x0000, 0x0200⟩ := by decide
theorem test_fetch_range : (next { State.reset with pc := 0x0FFF }).fault = ⟨.fetchRange, 0x0000, 0x0FFF⟩ := by decide
theorem test_load :
    readBytes (next (events [.load [0x60, 0x05]])).mem 0x1FF 4 = [0x00, 0x60, 0x05, 0x00] ∧
    (next (next (events [.load [0x60, 0x05]]))).getV 0 = 5 := by decide
theorem test_late_load : step { events [.load []] with loadOpen := false } = .refused .loadOutOfOrder := rfl
theorem test_reset_font : readBytes State.reset.mem 0x032 5 = [0xF0, 0x90, 0xF0, 0x90, 0x90] := by decide
theorem test_reset_keeps_host :
    (next { events [.reset] with keys := 0x0010, run := false, pc := 0x300 }).pc = 0x200 ∧
    (next { events [.reset] with keys := 0x0010, run := false }).keys = 0x0010 ∧
    (next { events [.reset] with run := false }).run = false := by decide

/-! ## Witnesses: a state and operands that meet the hypotheses of each statement, for each of its clauses -/

theorem witness_ResetStrobeGivesResetValues : ({ events [.reset] with status := .faulted }).pending = .reset :: [] := rfl

theorem slots_of_reset (s : State) (h : s.stack = State.reset.stack) (k : Nat) (h1 : 1 ≤ k) (h2 : k ≤ 16) :
    (s.slot k).toNat ≤ 0x1000 := by
  have e : s.slot k = State.reset.slot k := by simp only [State.slot, h]
  rw [e]; interval_cases k <;> decide

theorem witness_StepKeepsInvariant : (events [.tick]).Inv ∧ step (events [.tick]) = .next (next (events [.tick])) :=
  ⟨⟨by decide, by decide, slots_of_reset _ rfl, by decide⟩, rfl⟩

theorem witness_StepKeepsLoadWindow :
    (events [.tick]).LoadWindow ∧ step (events [.tick]) = .next (next (events [.tick])) :=
  ⟨fun _ => rfl, rfl⟩

theorem witness_EncodeOfDecodeIsIdentity : decodeWord 0x01EE = .ok (.ret 1) := by decide

theorem witness_StepRunsDecodedInstruction :
    CpuTurn (withWord 0x6005) ∧ (withWord 0x6005).status = .running ∧ (withWord 0x6005).run = true ∧
    0x200 ≤ (withWord 0x6005).pc.toNat ∧ (withWord 0x6005).pc.toNat ≤ 0xFFE ∧
    decodeWord (readByte (withWord 0x6005).mem (withWord 0x6005).pc.toNat ++
      readByte (withWord 0x6005).mem ((withWord 0x6005).pc.toNat + 1)) = .ok (.ldKk 0 5) :=
  ⟨.inl rfl, rfl, rfl, by decide, by decide, by decide⟩

theorem witness_FetchOutsideWindowFaults :
    CpuTurn { State.reset with pc := 0x1FF } ∧ ({ State.reset with pc := 0x1FF }).pc.toNat < 0x200 ∧
    CpuTurn { events [.step] with pc := 0xFFF } ∧ 0xFFE < ({ events [.step] with pc := 0xFFF }).pc.toNat ∧
    State.reset.status = .running ∧ State.reset.run = true :=
  ⟨.inl rfl, by decide, .inr ⟨[], rfl⟩, by decide, rfl, rfl⟩

theorem witness_InvalidWordFaults :
    CpuTurn State.reset ∧ State.reset.status = .running ∧ State.reset.run = true ∧ 0x200 ≤ State.reset.pc.toNat ∧
    State.reset.pc.toNat ≤ 0xFFE ∧ ∀ i, decodeWord (readWord State.reset.mem State.reset.pc.toNat) ≠ .ok i := by
  have h : decodeWord (readWord State.reset.mem State.reset.pc.toNat) = .error (.invalidOpcode 0) := by decide
  exact ⟨.inl rfl, rfl, rfl, by decide, by decide, by simp [h]⟩

theorem witness_ClearedRunFlagStops :
    CpuTurn { State.reset with run := false } ∧ ({ inStatus .waitingKey with run := false }).status = .waitingKey :=
  ⟨.inl rfl, rfl⟩

theorem witness_PollTakesLowestFreshKey :
    CpuTurn (inStatus .waitingKey) ∧ (inStatus .waitingKey).run = true ∧
    (∀ k, k < 16 → ¬((inStatus .waitingKey).keys.getLsbD k = true ∧ (inStatus .waitingKey).prevKeys.getLsbD k = false)) ∧
    ({ inStatus .waitingKey with keys := 0x8000 }).keys.getLsbD 15 = true ∧
    ∀ j, j < 15 → ¬(({ inStatus .waitingKey with keys := 0x8000 }).keys.getLsbD j = true ∧
      ({ inStatus .waitingKey with keys := 0x8000 }).prevKeys.getLsbD j = false) :=
  ⟨.inl rfl, rfl, by decide, by decide, by decide⟩

theorem witness_EndedRunTakesNoStep :
    (inStatus .stopped).status = .stopped ∧ (inStatus .faulted).pending = [] ∧
    ({ inStatus .faulted with pending := [.step] }).pending = .step :: [] ∧
    ({ inStatus .stopped with pending := [.tick] }).pending = .tick :: [] := ⟨rfl, rfl, rfl, rfl⟩

theorem witness_OnlyResetLeavesAnEndedRun :
    State.LoadWindow { inStatus .stopped with loadOpen := false, pending := [.reset] } ∧
    (next { inStatus .stopped with loadOpen := false, pending := [.reset] }).status = .running ∧
    State.LoadWindow { inStatus .faulted with loadOpen := false, pending := [.keys 1] } ∧
    (next { inStatus .faulted with loadOpen := false, pending := [.keys 1] }).keys = 1 :=
  ⟨fun h => Bool.noConfusion h, by decide, fun h => Bool.noConfusion h, by decide⟩

theorem witness_LiveCpuStepAnswersNext :
    CpuTurn State.reset ∧ State.reset.status = .running ∧ CpuTurn (inStatus .waitingKey) := ⟨.inl rfl, rfl, .inl rfl⟩

/-- One state for each cause that an instruction step can record. -/
theorem witness_FaultingStepIsPrecise :
    (next { State.reset with pc := 0x1FF }).fault.cause = .fetchRange ∧
    (next State.reset).fault.cause = .invalidOpcode ∧
    (next { withWord 0x2300 with sp := 16 }).fault.cause = .stackOverflow ∧
    (next (withWord 0x00EE)).fault.cause = .stackUnderflow ∧
    (next { withWord 0xF033 with i := 0xFFE }).fault.cause = .addressRange := by decide

theorem witness_FaultCausesFollowPriority :
    CpuTurn State.reset ∧ State.reset.status = .running ∧ step State.reset = .next (next State.reset) ∧
    (next State.reset).status = .faulted := ⟨.inl rfl, rfl, rfl, by decide⟩

theorem witness_CpuStepLeavesHostInputs :
    CpuTurn (events [.step, .tick]) ∧ step (events [.step, .tick]) = .next (next (events [.step, .tick])) :=
  ⟨.inr ⟨[.tick], rfl⟩, rfl⟩

theorem witness_TickCountsBothTimersDown :
    (events [.tick]).pending = .tick :: [] ∧ (events [.tick]).status = .running ∧
    ({ events [.tick] with status := .stopped }).status = .stopped := ⟨rfl, rfl, rfl⟩

/-- An image of the largest size. -/
theorem witness_LoadCopiesImageVerbatim :
    (events [.load (List.replicate 3584 1)]).pending = .load (List.replicate 3584 1) :: [] ∧
    (events [.load (List.replicate 3584 1)]).loadOpen = true ∧ (List.replicate 3584 (1 : Byte)).length ≤ 3584 :=
  ⟨rfl, rfl, by rw [List.length_replicate]⟩

theorem witness_OversizedLoadFaults :
    (events [.load (List.replicate 3585 1)]).pending = .load (List.replicate 3585 1) :: [] ∧
    (events [.load (List.replicate 3585 1)]).loadOpen = true ∧ 3584 < (List.replicate 3585 (1 : Byte)).length :=
  ⟨rfl, rfl, by rw [List.length_replicate]; decide⟩

theorem witness_LateLoadIsRefused :
    (events [.load []]).pending = .load [] :: [] ∧ (events [.load []]).loadOpen = true ∧
    ({ events [.load []] with loadOpen := false }).pending = .load [] :: [] ∧ CpuTurn State.reset ∧
    State.reset.status = .running ∧ step State.reset = .next (next State.reset) := ⟨rfl, rfl, rfl, .inl rfl, rfl, rfl⟩

theorem witness_CallPushesReturnAddress :
    ({ State.reset with sp := 15 }).sp.val < 16 ∧ ({ State.reset with sp := 16 }).sp.val = 16 := by decide

theorem witness_ReturnPopsAddress :
    1 ≤ ({ State.reset with sp := 1 }).sp.val ∧ State.reset.sp.val = 0 := by decide

theorem witness_CallThenReturnResumes : ({ State.reset with sp := 15 }).sp.val < 16 := by decide

theorem witness_CopyAndLogicSetRegister :
    (Instr.ldXy 15 0 = .ldXy 15 0 ∧ (fun _ b => b : Bool → Bool → Bool) = (fun _ b => b)) ∧
    (Instr.orXy 0 15 = .orXy 0 15 ∧ (fun a b => a || b : Bool → Bool → Bool) = (fun a b => a || b)) ∧
    (Instr.andXy 0 0 = .andXy 0 0 ∧ (fun a b => a && b : Bool → Bool → Bool) = (fun a b => a && b)) ∧
    (Instr.xorXy 1 2 = .xorXy 1 2 ∧ (fun a b => a != b : Bool → Bool → Bool) = (fun a b => a != b)) :=
  ⟨⟨rfl, rfl⟩, ⟨rfl, rfl⟩, ⟨rfl, rfl⟩, ⟨rfl, rfl⟩⟩

/-- The clauses with `x` or `y` not F, of the flag-writing instructions. -/
theorem witness_AddRegistersSetsCarry : (14 : Reg) ≠ VF := by decide
theorem witness_SubtractSetsNoBorrow : (0 : Reg) ≠ VF := by decide
theorem witness_ShiftsCaptureTheBitShiftedOut : (1 : Reg) ≠ VF := by decide
theorem witness_FlagRegisterAsDestination : (2 : Reg) ≠ VF := by decide

theorem witness_RandomByteIsMasked :
    ({ State.reset with rnd := [0xA5] }).rnd = 0xA5 :: [] ∧ State.reset.rnd = [] := ⟨rfl, rfl⟩

theorem witness_BcdStoresDecimalDigits : (atI 0xFFD).i.toNat + 2 ≤ 0xFFF ∧ (atI 0xFFE).i.toNat + 2 > 0xFFF := by decide
theorem witness_BlockStoreWritesRegisters :
    (atI 0xFF0).i.toNat + (15 : Reg).toNat ≤ 0xFFF ∧ (atI 0xFF1).i.toNat + (15 : Reg).toNat > 0xFFF := by decide
theorem witness_BlockLoadReadsRegisters :
    (atI 0xFFF).i.toNat + (0 : Reg).toNat ≤ 0xFFF ∧ (atI 0x1000).i.toNat + (0 : Reg).toNat > 0xFFF := by decide

/-- `n = 0` with I out of range, the last byte of memory, and one byte past it; a hit on a clear and on a set pixel. -/
theorem witness_DrawFlipsSpritePixels :
    (0 : Nibble).toNat = 0 ∧ (atI 0xFFF).i.toNat + (1 : Nibble).toNat - 1 ≤ 0xFFF ∧
    (1 ≤ (2 : Nibble).toNat ∧ (atI 0xFFF).i.toNat + (2 : Nibble).toNat - 1 > 0xFFF) ∧
    SpriteSets State.reset 0 1 5 0 0 ∧ pixel State.reset.fb 0 0 = false ∧
    pixel (after 0xD015 State.reset).fb 0 0 = true :=
  ⟨by decide, by decide, by decide, ⟨0, 0, by decide, by decide, by decide, by decide, by decide⟩, by decide, by decide⟩

/-- Two registers that are not VF; and `x = y = F` with VF 0 over a clear screen, where the place stays the same. -/
theorem witness_DrawingTwiceRestoresPixels :
    (0 : Reg) ≠ VF ∧ (1 : Reg) ≠ VF ∧ State.reset.i.toNat + (5 : Nibble).toNat - 1 ≤ 0xFFF ∧
    ((after 0xDFF5 State.reset).getV VF).toNat % 64 = (State.reset.getV VF).toNat % 64 ∧
    ((after 0xDFF5 State.reset).getV VF).toNat % 32 = (State.reset.getV VF).toNat % 32 :=
  ⟨by decide, by decide, by decide, by decide, by decide⟩

theorem witness_OnlyNamedRegistersAreWritten :
    exec (.ldKk 0 5) State.reset = .next ((State.reset.advance).setV 0 5) ∧ ¬WritesReg 1 (.ldKk 0 5) :=
  ⟨rfl, by show ¬(1 : Reg) = 0; decide⟩

theorem witness_OnlyNamedPartsAreWritten : exec (.ldDtVx 0) State.reset = .next (State.reset.advance.setDt 0) := rfl

theorem witness_DelayTimerRisesOnlyByItsLoad :
    step (withWord 0xF015) = .next (next (withWord 0xF015)) ∧
    step (events [.tick]) = .next (next (events [.tick])) ∧
    (State.dt (next { withWord 0xF015 with v := Vector.replicate 16 7 })) = 7 := ⟨rfl, rfl, by decide⟩

theorem witness_HostEventsSetKeysAndRun :
    (events [.keys 0x8001]).pending = .keys 0x8001 :: [] ∧ (events [.run false]).pending = .run false :: [] := ⟨rfl, rfl⟩

/-- A reset over a memory whose font was overwritten. -/
theorem witness_ResetWritesFontGlyphs :
    ({ events [.reset] with mem := [(0x000, 0xFF)] }).pending = .reset :: [] ∧
    readByte (next { events [.reset] with mem := [(0x000, 0xFF)] }).mem 0x000 = 0xF0 := ⟨rfl, by decide⟩

theorem witness_StoredWordIsFetchedNext :
    1 ≤ (1 : Reg).toNat ∧ (atI 0x202).i.toNat = (atI 0x202).pc.toNat + 2 ∧
    (atI 0x202).i.toNat + (1 : Reg).toNat ≤ 0xFFF := by decide

theorem witness_CanonicalMemoriesReadingAlikeAreEqual : Memory.wf [(0x200, 0x60)] ∧ Memory.wf [] := by decide

end Sys2Proof.Tests
end

section
/-! SUPPORT. Laws of the effects of an instruction: which parts of the state each operation leaves as they are, and how a
commit that can fault ends. -/

namespace Sys2Proof.Machine

/-! ### One equation per agent's turn -/

theorem step_nil {s : State} (h : s.pending = []) : step s = cpuStep s := by simp only [step, nextAction, h]

theorem step_cons {s : State} {e : Event} {rest : List Event} (h : s.pending = e :: rest) :
    step s = boundaryEvent e { s with pending := rest } := by simp only [step, nextAction, h]

theorem step_reset {s : State} {rest : List Event} (h : s.pending = .reset :: rest) :
    step s = .next (State.afterReset { s with pending := rest }) := step_cons h

theorem ended_iff (s : State) : s.ended = true ↔ s.status = .stopped ∨ s.status = .faulted := by simp [State.ended]

theorem timerTick_of_ended {s : State} (h : s.ended = true) : s.timerTick = s := by
  simp only [State.timerTick, h, if_true]

theorem timerTick_status (s : State) : s.timerTick.status = s.status := by
  unfold State.timerTick
  split <;> rfl

/-- On the CPU's turn no other event comes first. -/
theorem CpuTurn.eq_step {s : State} (h : CpuTurn s) {e : Event} {rest : List Event} (hp : s.pending = e :: rest) :
    e = .step := by
  rcases h with h | ⟨rest', h⟩ <;> rw [hp] at h <;> cases h
  rfl

/-! ### What a reset leaves (10_state.md R46) -/

theorem getV_afterReset (s : State) (r : Reg) : s.afterReset.getV r = 0 := by
  simp [State.getV, State.afterReset, State.reset]

theorem slot_afterReset (s : State) (k : Nat) : s.afterReset.slot k = 0 := by
  simp only [State.slot, State.afterReset, State.reset, Vector.toList_replicate, List.getD_eq_getElem?_getD,
    List.getElem?_replicate]
  split <;> rfl

theorem initialByte_eq_font (a : Nat) : initialByte a = Config.fontBytes.getD a 0 := by simp [initialByte]

/-! ### Where `pc` can go (10_state.md R28) -/

theorem pc_after_fetchable_le {pc : Word} (hf : fetchable pc = true) :
    (pc + 2).toNat ≤ 0x1000 ∧ (pc + 2 + 2).toNat ≤ 0x1002 := by
  obtain ⟨-, hle⟩ := (fetchable_iff pc).1 hf
  constructor <;> bv_omega

theorem addrWord_toNat (nnn : Addr12) : (addrWord nnn).toNat = nnn.toNat := by
  have := nnn.isLt
  simp only [addrWord, BitVec.toNat_setWidth]
  omega

theorem addrWord_le (nnn : Addr12) : (addrWord nnn).toNat ≤ 0xFFF := by
  have := nnn.isLt
  rw [addrWord_toNat]
  omega

theorem addrWord_add_byteWord_le (nnn : Addr12) (b : Byte) : (addrWord nnn + byteWord b).toNat ≤ 0x10FE := by
  have := addrWord_le nnn
  have := b.isLt
  simp only [BitVec.toNat_add, byteWord, BitVec.toNat_setWidth]
  omega

/-! ### Parts that an operation keeps -/

section
variable {P : List Part} {s t : State}

@[simp] theorem keepsAllBut_refl : KeepsAllBut P s s := fun p _ => by cases p <;> simp [KeepsPart]

@[simp] theorem keepsAllBut_setV (x : Reg) (b : Byte) : KeepsAllBut P s (t.setV x b) ↔ KeepsAllBut P s t :=
  forall₂_congr fun p _ => by cases p <;> rfl

@[simp] theorem keepsAllBut_setFirstRegs (bs : List Byte) : KeepsAllBut P s (t.setFirstRegs bs) ↔ KeepsAllBut P s t :=
  forall₂_congr fun p _ => by cases p <;> rfl

@[simp] theorem keepsAllBut_setPc (a : Word) : KeepsAllBut P s (t.setPc a) ↔ KeepsAllBut P s t :=
  forall₂_congr fun p _ => by cases p <;> rfl

@[simp] theorem keepsAllBut_advance : KeepsAllBut P s t.advance ↔ KeepsAllBut P s t := keepsAllBut_setPc _

@[simp] theorem keepsAllBut_skipIf (c : Bool) : KeepsAllBut P s (t.skipIf c) ↔ KeepsAllBut P s t := by
  cases c
  · rfl
  · exact keepsAllBut_setPc _

@[simp] theorem keepsAllBut_resultThenFlag (x : Reg) (b : Byte) (f : Bool) :
    KeepsAllBut P s (t.resultThenFlag x b f) ↔ KeepsAllBut P s t := by
  simp only [State.resultThenFlag, keepsAllBut_setV]

@[simp] theorem keepsAllBut_flagThenResult (x : Reg) (b : Byte) (f : Bool) :
    KeepsAllBut P s (t.flagThenResult x b f) ↔ KeepsAllBut P s t := by
  simp only [State.flagThenResult, keepsAllBut_setV]

@[simp] theorem keepsAllBut_setI (h : .index ∈ P) (a : Word) : KeepsAllBut P s (t.setI a) ↔ KeepsAllBut P s t :=
  forall₂_congr fun p hp => by
    cases p with
    | index => exact absurd h hp
    | _ => rfl

@[simp] theorem keepsAllBut_setDt (h : .delay ∈ P) (b : Byte) : KeepsAllBut P s (t.setDt b) ↔ KeepsAllBut P s t :=
  forall₂_congr fun p hp => by
    cases p with
    | delay => exact absurd h hp
    | _ => rfl

@[simp] theorem keepsAllBut_setSt (h : .sound ∈ P) (b : Byte) : KeepsAllBut P s (t.setSt b) ↔ KeepsAllBut P s t :=
  forall₂_congr fun p hp => by
    cases p with
    | sound => exact absurd h hp
    | _ => rfl

@[simp] theorem keepsAllBut_setFb (h : .display ∈ P) (fb : Framebuffer) :
    KeepsAllBut P s (t.setFb fb) ↔ KeepsAllBut P s t :=
  forall₂_congr fun p hp => by
    cases p with
    | display => exact absurd h hp
    | _ => rfl

@[simp] theorem keepsAllBut_takeDraw (h : .draws ∈ P) : KeepsAllBut P s t.takeDraw ↔ KeepsAllBut P s t :=
  forall₂_congr fun p hp => by
    cases p with
    | draws => exact absurd h hp
    | _ => rfl

@[simp] theorem keepsAllBut_enterWait (h : .control ∈ P) (x : Reg) :
    KeepsAllBut P s (t.enterWait x) ↔ KeepsAllBut P s t :=
  forall₂_congr fun p hp => by
    cases p with
    | control => exact absurd h hp
    | _ => rfl

@[simp] theorem keepsAllBut_drawn (h : .display ∈ P) (x y : Reg) (bs : List Byte) :
    KeepsAllBut P s (t.drawn x y bs) ↔ KeepsAllBut P s t := by simp [State.drawn, h]

theorem keepsAllBut_stackWrite (h : .stack ∈ P) (pc : Word) (sp : Fin 17) (stack : Vector Word 16) :
    KeepsAllBut P s { s with pc := pc, sp := sp, stack := stack } := fun p hp => by
  cases p with
  | stack => exact absurd h hp
  | _ => simp [KeepsPart]

theorem keepsAllBut_memWrite (h : .memory ∈ P) (pc : Word) (mem : Memory) :
    KeepsAllBut P s { s with pc := pc, mem := mem } := fun p hp => by
  cases p with
  | memory => exact absurd h hp
  | _ => simp [KeepsPart]

end

@[simp] theorem getV_drawn_ne (s : State) (x y : Reg) (bs : List Byte) {r : Reg} (h : r ≠ VF) :
    (s.drawn x y bs).getV r = s.getV r := getV_setV_ne _ _ h

/-! ### How a commit that can fault ends (40_cycle.md R97) -/

/-- The instruction faults: it records a cause, its own word and its own address, and writes nothing else. -/
def Raises (i : Instr) (s t : State) : Prop := ∃ c, c ≠ .none ∧ t = s.raise c (encode i) s.pc

section
variable {s t : State} {i : Instr}

theorem Raises.getV_eq (h : Raises i s t) (r : Reg) : t.getV r = s.getV r := by
  obtain ⟨c, -, rfl⟩ := h
  rfl

/-- A staged result that names a cause when it fails is a fault or a commit. -/
theorem complete_raises_or_ok {r : Except Cause State} (hr : r ≠ .error .none) (h : s.complete i r = .next t) :
    Raises i s t ∨ r = .ok t := by
  rcases complete_cases h with h | ⟨c, rfl, rfl⟩
  · exact .inr h
  · exact .inl ⟨c, fun hc => hr (by rw [hc]), rfl⟩

/-- RET's commit (41_control_flow.md R105). -/
theorem complete_popPc_cases (h : s.complete i s.advance.popPc = .next t) :
    Raises i s t ∨
      (1 ≤ s.sp.val ∧ t.pc = s.slot s.sp.val ∧ t = { s with pc := t.pc, sp := t.sp }) := by
  rcases popPc_cases s.advance with ⟨-, he⟩ | ⟨u, hsp, hu, hpc, -, heq⟩
  · rw [he] at h
    exact (complete_raises_or_ok (by simp) h).imp_right nofun
  · rw [hu] at h
    cases h
    exact .inr ⟨hsp, hpc, heq⟩

/-- CALL's commit (41_control_flow.md R107). -/
theorem complete_push_cases {a d : Word}
    (h : s.complete i ((s.advance.push a).map (fun u => u.setPc d)) = .next t) :
    Raises i s t ∨
      (t.pc = d ∧ (∀ k, 1 ≤ k → k ≤ 16 → t.slot k = if k = s.sp.val + 1 then a else s.slot k) ∧
        t = { s with pc := t.pc, sp := t.sp, stack := t.stack }) := by
  rcases push_cases s.advance a with ⟨-, he⟩ | ⟨u, -, hu, -, hslot, heq⟩
  · rw [he] at h
    exact (complete_raises_or_ok (by simp [Except.map]) h).imp_right nofun
  · rw [hu] at h
    cases h
    exact .inr ⟨rfl, hslot, by rw [heq]; rfl⟩

/-- The commit of LD B,Vx and LD [I],Vx (43_index_memory.md R133, R134). -/
theorem complete_storeBlock_cases {a : Nat} {bs : List Byte}
    (h : s.complete i (s.advance.storeBlock a bs) = .next t) :
    Raises i s t ∨
      ((s.mem.wf → t.mem.wf) ∧ t.pc = s.pc + 2 ∧ t = { s with pc := t.pc, mem := t.mem }) := by
  by_cases hr : bs.length = 0 ∨ a + bs.length - 1 ≤ 0xFFF
  · have hok := storeBlock_ok (s := s.advance) hr
    rw [hok] at h
    cases h
    exact .inr ⟨storeBlock_wf (s := s.advance) hok, rfl, rfl⟩
  · rw [storeBlock_error hr] at h
    exact (complete_raises_or_ok (by simp) h).imp_right nofun

/-- The commit of DRW and LD Vx,[I] (44_display.md R139, 43_index_memory.md R135). -/
theorem complete_loadBlock_cases {a n : Nat} {f : List Byte → State}
    (h : s.complete i ((s.loadBlock a n).map f) = .next t) :
    Raises i s t ∨ t = f (readBytes s.mem a n) := by
  by_cases hr : n = 0 ∨ a + n - 1 ≤ 0xFFF
  · rw [loadBlock_ok hr] at h
    cases h
    exact .inr rfl
  · rw [loadBlock_error hr] at h
    exact (complete_raises_or_ok (by simp [Except.map]) h).imp_right nofun

end

end Sys2Proof.Machine
end

section
/-! SUPPORT. The statements about the state as a whole (10_state.md): the invariant, the frame of every instruction, the end
of a run, reset and the host's inputs. -/

namespace Sys2Proof.Machine

/-! ### What an instruction may write -/

/-- Settles O54: the instructions by what they do to the registers. -/
theorem onlyNamedRegistersAreWritten : Obligations.OnlyNamedRegistersAreWritten := by
  intro i s t r h hr
  cases i with
  | ldKk x _ | addKk x _ | ldXy x _ | orXy x _ | andXy x _ | xorXy x _ | rnd x _ | ldVxDt x =>
    cases h
    exact getV_setV_ne _ _ hr
  | addXy x _ =>
    cases h
    obtain ⟨hx, hf⟩ := not_or.1 hr
    rw [getV_resultThenFlag, if_neg hf, if_neg hx, getV_advance]
  | subXy x _ | shr x _ | subnXy x _ | shl x _ =>
    cases h
    obtain ⟨hx, hf⟩ := not_or.1 hr
    rw [getV_flagThenResult, if_neg hx, if_neg hf, getV_advance]
  | drw x y n =>
    rcases complete_loadBlock_cases h with hf | rfl
    · exact hf.getV_eq r
    · exact getV_drawn_ne _ x y _ hr
  | ldLoad x =>
    rcases complete_loadBlock_cases h with hf | rfl
    · exact hf.getV_eq r
    · have hr : ¬r.toNat ≤ x.toNat := hr
      rw [getV_setFirstRegs, readBytes_length, if_neg (by omega), getV_advance]
  | ret z =>
    rcases complete_popPc_cases h with hf | ⟨-, -, heq⟩
    · exact hf.getV_eq r
    · rw [heq]; rfl
  | call nnn =>
    rcases complete_push_cases h with hf | ⟨-, -, heq⟩
    · exact hf.getV_eq r
    · rw [heq]; rfl
  | ldB x | ldStore x =>
    rcases complete_storeBlock_cases h with hf | ⟨-, -, heq⟩
    · exact hf.getV_eq r
    · rw [heq]; rfl
  | _ =>
    cases h
    simp

/-- An instruction commits and keeps every part its rule does not name, or it faults. -/
theorem exec_keepsAllBut_or_raises {i : Instr} {s t : State} (h : exec i s = .next t) :
    KeepsAllBut (writtenParts i) s t ∨ Raises i s t := by
  cases i with
  | ret z =>
    refine (complete_popPc_cases h).symm.imp_left fun ⟨_, _, heq⟩ => ?_
    rw [heq]
    exact keepsAllBut_stackWrite (by simp [writtenParts]) _ _ _
  | call nnn =>
    refine (complete_push_cases h).symm.imp_left fun ⟨_, _, heq⟩ => ?_
    rw [heq]
    exact keepsAllBut_stackWrite (by simp [writtenParts]) _ _ _
  | ldB x | ldStore x =>
    refine (complete_storeBlock_cases h).symm.imp_left fun ⟨_, _, heq⟩ => ?_
    rw [heq]
    exact keepsAllBut_memWrite (by simp [writtenParts]) _ _
  | drw x y n | ldLoad x =>
    refine (complete_loadBlock_cases h).symm.imp_left fun heq => ?_
    simp [heq, writtenParts]
  | _ =>
    cases h
    exact .inl (by simp [writtenParts])

/-- Settles O55: a fault's entry is the second alternative as it stands. -/
theorem onlyNamedPartsAreWritten : Obligations.OnlyNamedPartsAreWritten :=
  fun _ _ _ h => exec_keepsAllBut_or_raises h

/-! ### The invariant -/

section
variable {s t : State}

/-- The invariant of a state with the memory and stack of one that meets it, and a status and record of its own. -/
theorem State.Inv.of_mem_stack (hs : s.Inv) (hmem : t.mem = s.mem) (hstack : t.stack = s.stack)
    (hpc : t.pc.toNat ≤ 0x10FE) (hrec : t.status = .faulted ↔ t.fault.cause ≠ .none) : t.Inv where
  memCanonical := hmem ▸ hs.memCanonical
  pcBound := hpc
  slotBound k h1 h2 := by
    have hslot : t.slot k = s.slot k := by simp only [State.slot, hstack]
    exact hslot ▸ hs.slotBound k h1 h2
  recordMatches := hrec

/-- The invariant reads memory, the stack, status, the fault record and a bound on `pc`, and nothing else. -/
theorem State.Inv.of_frame (hs : s.Inv) (hmem : t.mem = s.mem) (hstack : t.stack = s.stack)
    (hstatus : t.status = s.status) (hfault : t.fault = s.fault) (hpc : t.pc.toNat ≤ 0x10FE) : t.Inv :=
  hs.of_mem_stack hmem hstack hpc (by rw [hstatus, hfault]; exact hs.recordMatches)

theorem State.Inv.granted (hs : s.Inv) : s.granted.Inv := hs.of_frame rfl rfl rfl rfl hs.pcBound

theorem State.Inv.raise (hs : s.Inv) {c : Cause} {w a : Word} (hc : c ≠ .none) : (s.raise c w a).Inv :=
  hs.of_mem_stack rfl rfl hs.pcBound (by simp [hc])

theorem Raises.inv {i : Instr} (h : Raises i s t) (hs : s.Inv) : t.Inv := by
  obtain ⟨c, hc, rfl⟩ := h
  exact hs.raise hc

/-- A run that has not faulted may take any other status that is no fault: its record names no cause. -/
theorem State.Inv.record_of_live (hs : s.Inv) (hlive : s.status ≠ .faulted) (ht : t.status ≠ .faulted)
    (hf : t.fault = s.fault) : t.status = .faulted ↔ t.fault.cause ≠ .none := by
  have := hs.recordMatches
  rw [hf]
  tauto

theorem State.Inv.of_pending (hs : s.Inv) (rest : List Event) : State.Inv { s with pending := rest } :=
  hs.of_frame rfl rfl rfl rfl hs.pcBound

theorem State.Inv.timerTick (hs : s.Inv) : s.timerTick.Inv := by
  unfold State.timerTick
  split
  · exact hs
  · exact hs.of_frame rfl rfl rfl rfl hs.pcBound

theorem State.Inv.poll (hs : s.Inv) (hw : s.status = .waitingKey) : s.poll.Inv := by
  have hlive : s.status ≠ .faulted := by simp [hw]
  rcases poll_cases s with ⟨k, -, -, -, heq⟩ | ⟨-, heq⟩ <;> rw [heq]
  · exact hs.of_mem_stack rfl rfl hs.pcBound (hs.record_of_live hlive nofun rfl)
  · exact hs.of_frame rfl rfl rfl rfl hs.pcBound

/-- Every field the invariant reads is one a reset writes. -/
theorem State.Inv.afterReset (s : State) : s.afterReset.Inv where
  memCanonical := reset_mem_wf
  pcBound := by simp [State.afterReset, State.reset]
  slotBound k _ _ := by simp [slot_afterReset]
  recordMatches := by simp [State.afterReset, State.reset]

/-- An image that fits ends below 0x1000 (70_reset_and_hazards.md R175). -/
theorem load_keeps_inv {image : List Byte} (hs : s.Inv) (h : s.load image = .next t) : t.Inv := by
  obtain ⟨-, ⟨hlen, rfl⟩ | ⟨-, rfl⟩⟩ := load_cases h
  · exact { memCanonical := writeBytes_wf hs.memCanonical (.inr (by simp only [Config.memSize]; omega))
            pcBound := hs.pcBound, slotBound := hs.slotBound, recordMatches := hs.recordMatches }
  · have hclosed : State.Inv { s with loadOpen := false } := hs.of_frame rfl rfl rfl rfl hs.pcBound
    exact hclosed.raise nofun

/-- R28: from a fetched instruction `pc` goes to the next one or the one after, to a target below 0x1000, to V0 past one,
or to a slot. -/
theorem exec_keeps_inv {i : Instr} (hs : s.Inv) (hrun : s.status = .running) (hf : fetchable s.pc = true)
    (h : exec i s = .next t) : t.Inv := by
  obtain ⟨hnext, hskip⟩ := pc_after_fetchable_le hf
  have hadvance : (s.pc + 2).toNat ≤ 0x10FE := by omega
  cases i with
  | jp nnn =>
    cases h
    exact hs.of_frame rfl rfl rfl rfl (Nat.le_trans (addrWord_le nnn) (by decide))
  | jpV0 nnn =>
    cases h
    exact hs.of_frame rfl rfl rfl rfl (addrWord_add_byteWord_le _ _)
  | seKk | sneKk | seXy | sneXy | skp | sknp =>
    cases h
    refine hs.of_frame (by simp) (by simp) (by simp) (by simp) ?_
    simp only [skipIf_pc, advance_pc]
    split <;> omega
  | ret z =>
    rcases complete_popPc_cases h with hr | ⟨hsp, hpc, heq⟩
    · exact hr.inv hs
    · have hslot := hs.slotBound _ hsp (Nat.le_of_lt_succ s.sp.isLt)
      rw [← hpc] at hslot
      rw [heq]
      exact hs.of_frame rfl rfl rfl rfl (by simp only; omega)
  | call nnn =>
    rcases complete_push_cases h with hr | ⟨hpc, hslot, heq⟩
    · exact hr.inv hs
    · refine { memCanonical := ?_, pcBound := ?_, slotBound := fun k h1 h2 => ?_, recordMatches := ?_ }
      · rw [heq]; exact hs.memCanonical
      · rw [hpc]; exact Nat.le_trans (addrWord_le nnn) (by decide)
      · rw [hslot k h1 h2]
        split
        · exact hnext
        · exact hs.slotBound k h1 h2
      · rw [heq]; exact hs.recordMatches
  | ldB x | ldStore x =>
    rcases complete_storeBlock_cases h with hr | ⟨hwf, hpc, heq⟩
    · exact hr.inv hs
    · refine { memCanonical := hwf hs.memCanonical, pcBound := ?_, slotBound := ?_, recordMatches := ?_ }
      · rw [hpc]; exact hadvance
      · rw [heq]; exact hs.slotBound
      · rw [heq]; exact hs.recordMatches
  | drw x y n | ldLoad x =>
    rcases complete_loadBlock_cases h with hr | rfl
    · exact hr.inv hs
    · exact hs.of_frame rfl rfl rfl rfl hadvance
  | ldVxK x =>
    cases h
    exact hs.of_mem_stack rfl rfl hadvance (hs.record_of_live (by simp [hrun]) nofun rfl)
  | _ =>
    cases h
    exact hs.of_frame rfl rfl rfl rfl hadvance

theorem instructionStep_keeps_inv (hs : s.Inv) (hrun : s.status = .running) (h : instructionStep s = .next t) :
    t.Inv := by
  rcases instructionStep_cases s with ⟨-, he⟩ | ⟨-, -, he⟩ | ⟨i, hf, -, he⟩ <;> rw [he] at h
  · cases h
    exact hs.raise nofun
  · cases h
    exact hs.raise nofun
  · exact exec_keeps_inv hs hrun hf h

end

/-- Settles O3, agent by agent. -/
theorem stepKeepsInvariant : Obligations.StepKeepsInvariant := by
  intro s t hs h
  rcases step_cases h with ⟨-, hlive, -, rfl⟩ | ⟨-, hw, -, rfl⟩ | ⟨-, hrun, -, h⟩ | ⟨_, -, -, rfl⟩ | ⟨_, -, rfl⟩ |
    ⟨_, _, -, rfl⟩ | ⟨_, _, -, rfl⟩ | ⟨_, -, rfl⟩ | ⟨_, rest, -, h⟩
  · refine hs.of_mem_stack rfl rfl hs.pcBound (hs.record_of_live ?_ nofun rfl)
    rcases hlive with hl | hl <;> simp [hl]
  · exact hs.granted.poll hw
  · exact instructionStep_keeps_inv hs.granted hrun h
  · exact hs.of_pending _
  · exact (hs.of_pending _).timerTick
  · exact hs.of_frame rfl rfl rfl rfl hs.pcBound
  · exact hs.of_frame rfl rfl rfl rfl hs.pcBound
  · exact .afterReset _
  · exact load_keeps_inv (hs.of_pending rest) h

/-! ### The end of a run -/

/-- Settles O16, by what is pending: nothing, a grant, a tick. -/
theorem endedRunTakesNoStep : Obligations.EndedRunTakesNoStep := by
  intro s hs
  refine ⟨fun hp => ?_, fun rest hp => ?_, fun rest hp => ?_⟩
  · rw [step_nil hp]
    rcases hs with hs | hs <;> simp [cpuStep, hs]
  · have he : ({ s with pending := rest } : State).ended = true := (ended_iff _).2 hs
    simp only [step_cons hp, boundaryEvent, he, if_true]
  · have he : ({ s with pending := rest } : State).ended = true := (ended_iff _).2 hs
    simp only [step_cons hp, boundaryEvent, timerTick_of_ended he]

/-- Settles O17: an ended run has no live CPU step, and its load window is closed, so a load is refused. -/
theorem onlyResetLeavesAnEndedRun : Obligations.OnlyResetLeavesAnEndedRun := by
  intro s t hw hs h
  have hrunning : s.status ≠ .running := by rcases hs with hs | hs <;> simp [hs]
  have hwaiting : s.status ≠ .waitingKey := by rcases hs with hs | hs <;> simp [hs]
  rcases step_cases h with ⟨-, hlive, -, -⟩ | ⟨-, hwait, -, -⟩ | ⟨-, hrun, -, -⟩ | ⟨_, -, -, rfl⟩ | ⟨_, -, rfl⟩ |
    ⟨_, _, -, rfl⟩ | ⟨_, _, -, rfl⟩ | ⟨rest, hp, -⟩ | ⟨_, _, -, h⟩
  · exact absurd hlive (not_or.2 ⟨hrunning, hwaiting⟩)
  · exact absurd hwait hwaiting
  · exact absurd hrun hrunning
  · exact .inl rfl
  · exact .inl (timerTick_status _)
  · exact .inl rfl
  · exact .inl rfl
  · exact .inr ⟨rest, hp⟩
  · have hreset := hw (load_cases h).1
    exact absurd (congrArg State.status hreset).symm hrunning

/-! ### Reset and the host's inputs -/

/-- Settles O1, field by field of `State.afterReset`. -/
theorem resetStrobeGivesResetValues : Obligations.ResetStrobeGivesResetValues := by
  intro s rest hp
  refine ⟨_, step_reset hp, getV_afterReset _, rfl, rfl, rfl, fun k _ _ => slot_afterReset _ k, rfl, rfl,
    fun a _ => initialByte_eq_font a, fun a ha => ?_, fun x y _ _ => pixel_clearFb x y, rfl, rfl, rfl, rfl, rfl, rfl⟩
  exact (initialByte_eq_font a).trans (List.getD_eq_default _ _ ha)

/-- Settles O59: each event is one boundary action, on the state without it. -/
theorem hostEventsSetKeysAndRun : Obligations.HostEventsSetKeysAndRun :=
  ⟨fun _ _ _ hp => step_cons hp, fun _ _ _ hp => step_cons hp⟩

/-- No instruction's rule names a part that the host owns. -/
theorem inputs_notMem_writtenParts (i : Instr) : .inputs ∉ writtenParts i := by cases i <;> simp [writtenParts]

theorem exec_keeps_inputs {i : Instr} {s t : State} (h : exec i s = .next t) : KeepsPart s t .inputs := by
  rcases exec_keepsAllBut_or_raises h with hk | ⟨_, -, rfl⟩
  · exact hk _ (inputs_notMem_writtenParts i)
  · exact ⟨rfl, rfl, rfl, rfl⟩

theorem instructionStep_keeps_inputs {s t : State} (h : instructionStep s = .next t) : KeepsPart s t .inputs := by
  rcases instructionStep_cases s with ⟨-, he⟩ | ⟨-, -, he⟩ | ⟨i, -, -, he⟩ <;> rw [he] at h
  · cases h
    exact ⟨rfl, rfl, rfl, rfl⟩
  · cases h
    exact ⟨rfl, rfl, rfl, rfl⟩
  · exact exec_keeps_inputs h

theorem poll_keeps_inputs (s : State) : KeepsPart s s.poll .inputs := by
  rcases poll_cases s with ⟨_, -, -, -, heq⟩ | ⟨-, heq⟩ <;> rw [heq] <;> exact ⟨rfl, rfl, rfl, rfl⟩

/-- Settles O21: the CPU's four ways to step, each from the granted state; every other event is not the CPU's turn. -/
theorem cpuStepLeavesHostInputs : Obligations.CpuStepLeavesHostInputs := by
  intro s t hc h
  rcases step_cases h with ⟨-, -, -, rfl⟩ | ⟨-, -, -, rfl⟩ | ⟨-, -, -, h⟩ | ⟨_, hp, -, rfl⟩ | ⟨_, hp, -⟩ |
    ⟨_, _, hp, -⟩ | ⟨_, _, hp, -⟩ | ⟨_, hp, -⟩ | ⟨_, _, hp, -⟩
  · exact ⟨rfl, rfl, rfl⟩
  · obtain ⟨hkeys, hrun, -, hpending⟩ := poll_keeps_inputs s.granted
    exact ⟨hkeys, hrun, hpending⟩
  · obtain ⟨hkeys, hrun, -, hpending⟩ := instructionStep_keeps_inputs h
    exact ⟨hkeys, hrun, hpending⟩
  · exact ⟨rfl, rfl, by rw [hp]; rfl⟩
  all_goals exact nomatch hc.eq_step hp

end Sys2Proof.Machine
end

section
/-! SUPPORT. The statements about memory (20_memory.md): a word stored right after its storing instruction is fetched
next, and the canonical form is unique. -/

namespace Sys2Proof.Machine

/-! ### Storing ahead of `pc` -/

/-- In range, the whole block is committed along with the prologue's `pc` (43_index_memory.md R134). -/
theorem exec_ldStore_of_inRange {s : State} {x : Reg} (h : s.i.toNat + x.toNat ≤ 0xFFF) :
    exec (.ldStore x) s =
      .next { s.advance with mem := writeBytes s.mem s.i.toNat (s.firstRegs x) } := by
  have hr : (s.firstRegs x).length = 0 ∨ s.i.toNat + (s.firstRegs x).length - 1 ≤ 0xFFF := by
    rw [firstRegs_length]; omega
  show s.complete (.ldStore x) (s.advance.storeBlock s.i.toNat (s.firstRegs x)) = _
  rw [storeBlock_ok hr, complete_ok, advance_mem]

/-- The stored block holds register `r` at offset `r`. -/
theorem readByte_writeBytes_firstRegs (s : State) (m : Memory) (a : Nat) {x r : Reg} (h : r.toNat ≤ x.toNat) :
    readByte (writeBytes m a (s.firstRegs x)) (a + r.toNat) = s.getV r := by
  rw [readByte_writeBytes_inside (by rw [firstRegs_length]; omega), firstRegs_getD s h]

/-- Settles O57: the store is in range, and the advanced `pc` is where its block begins. -/
theorem storedWordIsFetchedNext : Obligations.StoredWordIsFetchedNext := by
  intro s x hx hi hr
  refine ⟨_, exec_ldStore_of_inRange hr, ?_⟩
  have hpc : (s.pc + 2).toNat = s.i.toNat := by
    rw [BitVec.toNat_add_of_lt (by simp only [BitVec.reduceToNat]; omega), hi]; rfl
  have h0 := readByte_writeBytes_firstRegs s s.mem s.i.toNat (x := x) (r := 0) (Nat.zero_le _)
  have h1 := readByte_writeBytes_firstRegs s s.mem s.i.toNat (x := x) (r := 1) hx
  simp only [State.fetchWord, readWord, advance_pc, hpc]
  exact congrArg₂ (· ++ ·) h0 h1

/-! ### The canonical form is unique -/

/-- Where the addresses rise, each entry is what its address reads. -/
theorem readByte_of_mem {m : Memory} (h : m.Pairwise (fun c d => c.1 < d.1)) {c : Host.Cell} (hc : c ∈ m) :
    readByte m c.1 = c.2 := by
  induction m with
  | nil => cases hc
  | cons d m ih =>
    obtain ⟨hlt, hm⟩ := List.pairwise_cons.1 h
    rcases List.mem_cons.1 hc with rfl | hc
    · exact if_pos rfl
    · exact (if_neg (Nat.ne_of_lt (hlt c hc))).trans (ih hm hc)

/-- An address that reads other than its reset contents has an entry. -/
theorem mem_of_readByte_ne {m : Memory} {a : Nat} (h : readByte m a ≠ initialByte a) : (a, readByte m a) ∈ m := by
  induction m with
  | nil => exact absurd rfl h
  | cons d m ih =>
    obtain ⟨b, u⟩ := d
    by_cases hb : b = a
    · subst hb; simp [readByte]
    · have hread : readByte ((b, u) :: m) a = readByte m a := if_neg hb
      rw [hread] at h ⊢
      exact List.mem_cons_of_mem _ (ih h)

/-- A canonical memory's entries are the bytes that read other than their reset contents. -/
theorem Memory.wf.mem_iff {m : Memory} (h : m.wf) (c : Host.Cell) :
    c ∈ m ↔ readByte m c.1 = c.2 ∧ c.2 ≠ initialByte c.1 := by
  refine ⟨fun hc => ⟨readByte_of_mem h.1 hc, (h.2 c hc).2⟩, fun ⟨hread, hne⟩ => ?_⟩
  have := mem_of_readByte_ne (hread ▸ hne)
  rwa [hread] at this

/-- Settles O58: alike reads give the same entries, and a strictly rising order admits one listing of them. -/
theorem canonicalMemoriesReadingAlikeAreEqual : Obligations.CanonicalMemoriesReadingAlikeAreEqual := by
  intro m m' hm hm' hread
  have hasymm : Std.Asymm (fun c d : Host.Cell => c.1 < d.1) := ⟨fun _ _ => Nat.lt_asymm⟩
  refine hm.1.eq_of_mem_iff hm'.1 fun c => ?_
  rw [hm.mem_iff, hm'.mem_iff, hread]

end Sys2Proof.Machine
end

section
/-! SUPPORT. The statements about the encoding of words (30_encoding.md): decoder and encoder undo each other, and the
decoder has exactly the words that the opcode map has. -/

namespace Sys2Proof

/-! ### A word is its fields, for every format (R74-R79) -/

theorem nnn_eta (w : Word) : (fieldOp w ++ fieldNnn w : Word) = w := by
  rw [fieldOp, fieldNnn, BitVec.extractLsb'_append_extractLsb'_eq_extractLsb' (by decide)]
  exact extract_all w

theorem xyn_eta (w : Word) : (fieldOp w ++ fieldX w ++ fieldY w ++ fieldN w : Word) = w := by
  simp only [fieldOp, fieldX, fieldY, fieldN]
  rw [BitVec.extractLsb'_append_extractLsb'_eq_extractLsb' (by decide),
    BitVec.extractLsb'_append_extractLsb'_eq_extractLsb' (by decide),
    BitVec.extractLsb'_append_extractLsb'_eq_extractLsb' (by decide)]
  exact extract_all w

/-- The two bytes in the order of 20_memory.md R56. -/
theorem bytes_eta (w : Word) : (w.extractLsb' 8 8 ++ w.extractLsb' 0 8 : Word) = w := by
  rw [BitVec.extractLsb'_append_extractLsb'_eq_extractLsb' (by decide)]
  exact extract_all w

theorem fieldOp_toNat (w : Word) : (fieldOp w).toNat = w.toNat / 4096 := by
  have := w.isLt
  simp only [fieldOp, BitVec.extractLsb'_toNat, Nat.shiftRight_eq_div_pow]
  omega

theorem fieldKk_toNat (w : Word) : (fieldKk w).toNat = w.toNat % 256 := by simp [fieldKk]

theorem fieldN_toNat (w : Word) : (fieldN w).toNat = w.toNat % 16 := by simp [fieldN]

/-! ### The same with the fields that the decoder tests given by their values -/

section
variable {w : Word} {k b : Nat} (hop : (fieldOp w).toNat = k)
include hop

theorem nnn_eta_of_op : (BitVec.ofNat 4 k ++ fieldNnn w : Word) = w := by
  rw [← hop, BitVec.ofNat_toNat, BitVec.setWidth_eq, nnn_eta]

theorem xkk_eta_of_op : (BitVec.ofNat 4 k ++ fieldX w ++ fieldKk w : Word) = w := by
  rw [← hop, BitVec.ofNat_toNat, BitVec.setWidth_eq, xkk_eta]

theorem xyn_eta_of_op : (BitVec.ofNat 4 k ++ fieldX w ++ fieldY w ++ fieldN w : Word) = w := by
  rw [← hop, BitVec.ofNat_toNat, BitVec.setWidth_eq, xyn_eta]

theorem xkk_eta_of_op_kk (hkk : (fieldKk w).toNat = b) :
    (BitVec.ofNat 4 k ++ fieldX w ++ BitVec.ofNat 8 b : Word) = w := by
  rw [← hkk, BitVec.ofNat_toNat, BitVec.setWidth_eq, xkk_eta_of_op hop]

theorem xyn_eta_of_op_n (hn : (fieldN w).toNat = b) :
    (BitVec.ofNat 4 k ++ fieldX w ++ fieldY w ++ BitVec.ofNat 4 b : Word) = w := by
  rw [← hn, BitVec.ofNat_toNat, BitVec.setWidth_eq, xyn_eta_of_op hop]
end

/-! ### Decoding an encoded instruction -/

/-- By the class of R82 that the instruction's word is decoded in; the last case is the classes with no second dispatch. -/
theorem decodeWord_encode (i : Instr) : decodeWord (encode i) = .ok i := by
  cases i with
  | cls | ret => simp [encode, decodeWord, decodeClass0]
  | ldXy | orXy | andXy | xorXy | addXy | subXy | shr | subnXy | shl => simp [encode, decodeWord, decodeClass8]
  | skp | sknp => simp [encode, decodeWord, decodeClassE]
  | ldVxDt | ldVxK | ldDtVx | ldStVx | addI | ldF | ldB | ldStore | ldLoad =>
    simp [encode, decodeWord, decodeClassF]
  | _ => simp [encode, decodeWord]

theorem decode_encodeBytes (i : Instr) (rest : List Byte) : decode (encodeBytes i ++ rest) = .ok (i, rest) := by
  simp [encodeBytes, decode, bytes_eta, decodeWord_encode]

/-- Settles O5: the word, then its two bytes put together again. -/
theorem decodeOfEncodeIsIdentity : Obligations.DecodeOfEncodeIsIdentity :=
  fun i rest => ⟨decodeWord_encode i, decode_encodeBytes i rest⟩

/-- Settles O9, by running the decoder on the twelve words. -/
theorem writtenOutWordsDecode : Obligations.WrittenOutWordsDecode := by
  unfold Obligations.WrittenOutWordsDecode
  decide

/-! ### Encoding a decoded word -/

section
variable {w : Word} {i : Instr}

theorem encode_of_decodeClass0 (hop : (fieldOp w).toNat = 0x0) (h : decodeClass0 w = .ok i) : encode i = w := by
  unfold decodeClass0 at h
  split at h <;> cases h <;> exact xkk_eta_of_op_kk hop ‹_›

theorem encode_of_decodeClass8 (hop : (fieldOp w).toNat = 0x8) (h : decodeClass8 w = .ok i) : encode i = w := by
  unfold decodeClass8 at h
  split at h <;> cases h <;> exact xyn_eta_of_op_n hop ‹_›

theorem encode_of_decodeClassE (hop : (fieldOp w).toNat = 0xE) (h : decodeClassE w = .ok i) : encode i = w := by
  unfold decodeClassE at h
  split at h <;> cases h <;> exact xkk_eta_of_op_kk hop ‹_›

theorem encode_of_decodeClassF (hop : (fieldOp w).toNat = 0xF) (h : decodeClassF w = .ok i) : encode i = w := by
  unfold decodeClassF at h
  split at h <;> cases h <;> exact xkk_eta_of_op_kk hop ‹_›

/-- What the first level of the decoder can do (R82): a second level, or an instruction whose word this is. -/
theorem decodeWord_cases (w : Word) :
    ((fieldOp w).toNat = 0x0 ∧ decodeWord w = decodeClass0 w) ∨
    ((fieldOp w).toNat = 0x8 ∧ decodeWord w = decodeClass8 w) ∨
    ((fieldOp w).toNat = 0xE ∧ decodeWord w = decodeClassE w) ∨
    ((fieldOp w).toNat = 0xF ∧ decodeWord w = decodeClassF w) ∨
    ((fieldOp w).toNat ∉ [0x0, 0x8, 0xE, 0xF] ∧ ∃ i, decodeWord w = .ok i ∧ encode i = w) := by
  have hlt := (fieldOp w).isLt
  unfold decodeWord
  split
  case h_1 hop => exact .inl ⟨hop, rfl⟩
  case h_9 hop => exact .inr (.inl ⟨hop, rfl⟩)
  case h_15 hop => exact .inr (.inr (.inl ⟨hop, rfl⟩))
  case h_16 =>
    refine .inr (.inr (.inr (.inl ⟨?_, rfl⟩)))
    simp only [imp_false] at *
    omega
  all_goals refine .inr (.inr (.inr (.inr ⟨by simp [*], _, rfl, ?_⟩)))
  case h_2 hop | h_3 hop | h_11 hop | h_12 hop => exact nnn_eta_of_op hop
  case h_6 hop | h_10 hop | h_14 hop => exact xyn_eta_of_op hop
  all_goals next hop => exact xkk_eta_of_op hop

theorem encode_of_decodeWord (h : decodeWord w = .ok i) : encode i = w := by
  rcases decodeWord_cases w with ⟨hop, heq⟩ | ⟨hop, heq⟩ | ⟨hop, heq⟩ | ⟨hop, heq⟩ | ⟨-, j, heq, hj⟩ <;> rw [heq] at h
  · exact encode_of_decodeClass0 hop h
  · exact encode_of_decodeClass8 hop h
  · exact encode_of_decodeClassE hop h
  · exact encode_of_decodeClassF hop h
  · cases h
    exact hj
end

/-- Settles O6, class by class. -/
theorem encodeOfDecodeIsIdentity : Obligations.EncodeOfDecodeIsIdentity :=
  fun _ _ => encode_of_decodeWord

/-! ### The INVALID words (R86) -/

section
variable (w : Word)

theorem decodeClass0_eq_error_iff :
    decodeClass0 w = .error (.invalidOpcode w) ↔ (fieldKk w).toNat ∉ [0xE0, 0xEE] := by
  unfold decodeClass0
  split <;> simp_all

theorem decodeClass8_eq_error_iff :
    decodeClass8 w = .error (.invalidOpcode w) ↔ (fieldN w).toNat ∈ [0x8, 0x9, 0xA, 0xB, 0xC, 0xD, 0xF] := by
  have hlt := (fieldN w).isLt
  unfold decodeClass8
  split
  case h_10 =>
    simp only [imp_false, List.mem_cons, List.not_mem_nil, or_false, true_iff] at *
    omega
  all_goals simp [*]

theorem decodeClassE_eq_error_iff :
    decodeClassE w = .error (.invalidOpcode w) ↔ (fieldKk w).toNat ∉ [0x9E, 0xA1] := by
  unfold decodeClassE
  split <;> simp_all

theorem decodeClassF_eq_error_iff :
    decodeClassF w = .error (.invalidOpcode w) ↔
      (fieldKk w).toNat ∉ [0x07, 0x0A, 0x15, 0x18, 0x1E, 0x29, 0x33, 0x55, 0x65] := by
  unfold decodeClassF
  split <;> simp_all
end

/-- Settles O7: each class with a second dispatch has its own set, and the other classes have none. -/
theorem invalidWordsAreTheFourSets : Obligations.InvalidWordsAreTheFourSets := by
  intro w
  rw [← fieldOp_toNat, ← fieldKk_toNat, ← fieldN_toNat, ← decodeClass0_eq_error_iff, ← decodeClass8_eq_error_iff,
    ← decodeClassE_eq_error_iff, ← decodeClassF_eq_error_iff]
  rcases decodeWord_cases w with ⟨hop, heq⟩ | ⟨hop, heq⟩ | ⟨hop, heq⟩ | ⟨hop, heq⟩ | ⟨hop, i, heq, -⟩
  · simp [hop, heq]
  · simp [hop, heq]
  · simp [hop, heq]
  · simp [hop, heq]
  · simp only [List.mem_cons, List.not_mem_nil, or_false, not_or] at hop
    simp [hop, heq]

/-! ### The rows of the opcode map (R83, R84) -/

theorem hasWord_iff (r : OpcodeRow) (w : Word) : r.hasWord w = true ↔ w &&& r.mask = r.pattern := by
  simp [OpcodeRow.hasWord]

/-- By the mask of the row: op alone in three formats, op and low nibble, or op and low byte. -/
theorem row_hasWord_encode (i : Instr) : i.row.hasWord (encode i) = true := by
  rw [hasWord_iff]
  cases i with
  | jp | call | ldI | jpV0 => exact mask_op_nnn _ _
  | seKk | sneKk | ldKk | addKk | rnd => exact mask_op_xkk _ _ _
  | seXy | sneXy | drw => exact mask_op_xyn _ _ _ _
  | ldXy | orXy | andXy | xorXy | addXy | subXy | shr | subnXy | shl => exact mask_opn_xyn _ _ _ _
  | _ => exact mask_opkk_xkk _ _ _

/-- Two patterns that differ on a bit of both masks are not met by one word. -/
theorem not_both_hasWord {r q : OpcodeRow} (h : (r.pattern ^^^ q.pattern) &&& r.mask &&& q.mask ≠ 0) (w : Word) :
    ¬(r.hasWord w = true ∧ q.hasWord w = true) := by
  rintro ⟨hr, hq⟩
  rw [hasWord_iff] at hr hq
  refine h ?_
  rw [← hr, ← hq]
  ext k
  simp only [BitVec.getElem_and, BitVec.getElem_xor, BitVec.ofNat_eq_ofNat, BitVec.getElem_zero]
  grind

theorem row_eq_of_hasWord {r q : OpcodeRow} {w : Word} (hr : r ∈ opcodeMap) (hq : q ∈ opcodeMap)
    (hrw : r.hasWord w = true) (hqw : q.hasWord w = true) : r = q := by
  have hsymm : Std.Symm fun r q : OpcodeRow => ¬(r.hasWord w = true ∧ q.hasWord w = true) :=
    ⟨fun _ _ => mt And.symm⟩
  by_contra hne
  exact (opcodeMap_disjoint.imp fun h => not_both_hasWord h w).forall hr hq hne ⟨hrw, hqw⟩

section
variable {w p : Word}

theorem fieldOp_of_mask_op (h : w &&& 0xF000#16 = p) : (fieldOp w).toNat = p.toNat / 4096 := by
  rw [← fieldOp_toNat, ← h, ← xkk_eta w, mask_op_xkk, fieldOp_xkk, fieldOp_xkk]

theorem fields_of_mask_opkk (h : w &&& 0xF0FF#16 = p) :
    (fieldOp w).toNat = p.toNat / 4096 ∧ (fieldKk w).toNat = p.toNat % 256 := by
  rw [← fieldOp_toNat, ← fieldKk_toNat, ← h, ← xkk_eta w, mask_opkk_xkk]
  simp only [fieldOp_xkk, fieldKk_xkk, and_self]

theorem fields_of_mask_opn (h : w &&& 0xF00F#16 = p) :
    (fieldOp w).toNat = p.toNat / 4096 ∧ (fieldN w).toNat = p.toNat % 16 := by
  rw [← fieldOp_toNat, ← fieldN_toNat, ← h, ← xyn_eta w, mask_opn_xyn]
  simp only [fieldOp_xyn, fieldN_xyn, and_self]
end

/-- The fields that a row's mask selects are those the decoder tests, and the row's pattern gives them values it knows. -/
theorem decodes_of_row_hasWord {j : Instr} {w : Word} (h : j.row.hasWord w = true) : ∃ i, decodeWord w = .ok i := by
  rw [hasWord_iff] at h
  cases j with
  | cls | ret =>
    obtain ⟨hop, hkk⟩ := fields_of_mask_opkk h
    simp [decodeWord, decodeClass0, hop, hkk, Instr.row]
  | ldXy | orXy | andXy | xorXy | addXy | subXy | shr | subnXy | shl =>
    obtain ⟨hop, hn⟩ := fields_of_mask_opn h
    simp [decodeWord, decodeClass8, hop, hn, Instr.row]
  | skp | sknp =>
    obtain ⟨hop, hkk⟩ := fields_of_mask_opkk h
    simp [decodeWord, decodeClassE, hop, hkk, Instr.row]
  | ldVxDt | ldVxK | ldDtVx | ldStVx | addI | ldF | ldB | ldStore | ldLoad =>
    obtain ⟨hop, hkk⟩ := fields_of_mask_opkk h
    simp [decodeWord, decodeClassF, hop, hkk, Instr.row]
  | _ => simp [decodeWord, fieldOp_of_mask_op h, Instr.row]

theorem row_hasWord_of_decodeWord {w : Word} {i : Instr} (h : decodeWord w = .ok i) : i.row.hasWord w = true := by
  rw [← encode_of_decodeWord h]
  exact row_hasWord_encode i

/-- Settles O8: a decoded word is its instruction's word, which the instruction's row has, and no two rows share a word. -/
theorem decodeAgreesWithOpcodeMap : Obligations.DecodeAgreesWithOpcodeMap := by
  refine fun w => ⟨⟨fun ⟨i, h⟩ => ?_, fun ⟨r, hr, h⟩ => ?_⟩, fun i h r hr => ⟨fun hw => ?_, ?_⟩⟩
  · exact ⟨i.row, row_mem i, row_hasWord_of_decodeWord h⟩
  · obtain ⟨j, -, rfl⟩ := List.mem_map.1 hr
    exact decodes_of_row_hasWord h
  · exact row_eq_of_hasWord hr (row_mem i) hw (row_hasWord_of_decodeWord h)
  · rintro rfl
    exact row_hasWord_of_decodeWord h

end Sys2Proof
end

section
/-! SUPPORT. The statement about assembly (30_encoding.md R89, R90): an instruction's line is well-formed and assembles
back to it, and every well-formed line is read back from its text. -/

namespace Sys2Proof

/-! ### Assembling a line -/

section
variable (r : Reg) (b : Byte) (a : Addr12)

@[simp] theorem regOk_toNat : regOk r.toNat = true := by simpa [regOk] using r.isLt

@[simp] theorem immOk_toNat : immOk b.toNat = true := by simpa [immOk] using b.isLt

@[simp] theorem addrOk_toNat : addrOk a.toNat = true := by simpa [addrOk] using a.isLt

@[simp] theorem countOk_toNat : countOk r.toNat = true := regOk_toNat r
end

/-- Every operand of an instruction has the width that its check asks for. -/
theorem toAsm_wellFormed (i : Instr) : i.toAsm.wellFormed = true := by
  cases i <;> simp [Instr.toAsm, AsmLine.wellFormed]

/-- Every operand comes back from its number, and the ignored bits are the zeros that `build` writes. -/
theorem toAsm_build (i : Instr) : i.toAsm.build = some i.clearIgnored := by
  cases i <;> simp [Instr.toAsm, AsmLine.build, Instr.clearIgnored]

theorem toAsm_assemble (i : Instr) : i.toAsm.assemble = some i.clearIgnored := by
  rw [AsmLine.assemble, if_pos (toAsm_wellFormed i), toAsm_build]

/-! ### Splitting a text at its separators -/

section
variable {sep : Char} {p : List Char}

theorem splitAtChar_of_notMem (h : sep ∉ p) : splitAtChar sep p = [p] := by
  induction p with
  | nil => rfl
  | cons c cs ih =>
    obtain ⟨hc, hcs⟩ := List.ne_and_not_mem_of_not_mem_cons h
    simp [splitAtChar, ih hcs, hc.symm]

theorem splitAtChar_append (h : sep ∉ p) (q : List Char) :
    splitAtChar sep (p ++ sep :: q) = p :: splitAtChar sep q := by
  induction p with
  | nil => simp [splitAtChar]
  | cons c cs ih =>
    obtain ⟨hc, hcs⟩ := List.ne_and_not_mem_of_not_mem_cons h
    simp [splitAtChar, ih hcs, hc.symm]
end

theorem splitAtChar_operandsText {os : List AsmOperand} (hne : os ≠ []) (h : ∀ o ∈ os, ',' ∉ o.text) :
    splitAtChar ',' (operandsText os) = os.map AsmOperand.text := by
  fun_induction operandsText os with
  | case1 => exact absurd rfl hne
  | case2 o => exact splitAtChar_of_notMem (h o (by simp))
  | case3 o os hos ih =>
    obtain ⟨ho, hos'⟩ := List.forall_mem_cons.1 h
    rw [splitAtChar_append ho, ih hos hos', List.map_cons]

theorem notMem_operandsText {c : Char} (hc : c ≠ ',') {os : List AsmOperand} (h : ∀ o ∈ os, c ∉ o.text) :
    c ∉ operandsText os := by
  fun_induction operandsText os with
  | case1 => simp
  | case2 o => exact h o (by simp)
  | case3 o os hos ih =>
    obtain ⟨ho, hos'⟩ := List.forall_mem_cons.1 h
    simp [ho, hc, ih hos']

/-! ### Digits and numbers -/

/-- What holds of the sixteen digits holds of the digit written for any number. -/
theorem hexDigit_forall {P : Nat → Char → Prop} (h : ∀ k : Fin 16, P k (hexDigit k)) (d : Nat) :
    P (d % 16) (hexDigit d) := by
  have hd : hexDigit d = hexDigit (d % 16) := by simp only [hexDigit, Nat.mod_mod]
  rw [hd]
  exact h ⟨d % 16, Nat.mod_lt _ (by decide)⟩

theorem digitValue_hexDigit (d : Nat) : digitValue (hexDigit d) = some (d % 16) :=
  hexDigit_forall (P := fun k c => digitValue c = some k) (by decide) d

theorem hexDigit_lt (d : Nat) : hexDigit d < 'a' := hexDigit_forall (P := fun _ c => c < 'a') (by decide) d

theorem separator_ne_hexDigit (d : Nat) : ' ' ≠ hexDigit d ∧ ',' ≠ hexDigit d :=
  hexDigit_forall (P := fun _ c => ' ' ≠ c ∧ ',' ≠ c) (by decide) d

theorem readDigits_hexDigit (acc d : Nat) (cs : List Char) :
    readDigits 16 acc (hexDigit d :: cs) = readDigits 16 (acc * 16 + d % 16) cs := by
  simp [readDigits, digitValue_hexDigit, Nat.mod_lt]

theorem readNumber_numberText {n : Nat} (h : n < 4096) : readNumber (numberText n) = some n := by
  unfold numberText
  split <;> simp only [readNumber, readDigits_hexDigit] <;> rw [readDigits, Option.some.injEq] <;> omega

/-! ### Operands -/

/-- The operand's number is one that its text has the digits for: the bounds of a register and of the widest number. -/
def AsmOperand.InRange : AsmOperand → Prop
  | .reg n => regOk n = true
  | .num n => addrOk n = true
  | _ => True

theorem readOperand_numberText (n : Nat) : readOperand (numberText n) = (readNumber (numberText n)).map .num := by
  unfold numberText
  split <;> rfl

theorem readOperand_text {o : AsmOperand} (h : o.InRange) : readOperand o.text = some o := by
  cases o with
  | reg n =>
    have hn : n % 16 = n := Nat.mod_eq_of_lt (of_decide_eq_true h)
    simp [AsmOperand.text, readOperand, digitValue_hexDigit, hexDigit_lt, hn]
  | num n => rw [AsmOperand.text, readOperand_numberText, readNumber_numberText (of_decide_eq_true h), Option.map_some]
  | _ => rfl

theorem readOperands_map_text {os : List AsmOperand} (h : ∀ o ∈ os, o.InRange) :
    readOperands (os.map AsmOperand.text) = some os := by
  induction os with
  | nil => rfl
  | cons o os ih =>
    obtain ⟨ho, hos⟩ := List.forall_mem_cons.1 h
    simp [readOperands, readOperand_text ho, ih hos]

theorem separator_notMem_text (o : AsmOperand) : ' ' ∉ o.text ∧ ',' ∉ o.text := by
  cases o with
  | reg n => simp [AsmOperand.text, separator_ne_hexDigit]
  | num n =>
    rw [AsmOperand.text, numberText]
    split <;> simp [separator_ne_hexDigit]
  | _ => decide

/-! ### Lines -/

/-- No two mnemonics have the same letters. -/
theorem find?_mnemonic_text (m : Mnemonic) : mnemonicTexts.find? (fun p => p.2 == m.text) = some (m, m.text) := by
  cases m <;> decide

theorem space_notMem_mnemonic_text (m : Mnemonic) : ' ' ∉ m.text := by cases m <;> decide

theorem readLine_text {l : AsmLine} (h : ∀ o ∈ l.operands, o.InRange) : readLine l.text = some l := by
  obtain ⟨m, os⟩ := l
  have hm := space_notMem_mnemonic_text m
  cases os with
  | nil =>
    show readLine m.text = _
    rw [readLine, splitAtChar_of_notMem hm]
    simp only [find?_mnemonic_text, Option.map_some]
  | cons o os =>
    have hspace : ' ' ∉ operandsText (o :: os) :=
      notMem_operandsText (by decide) fun o _ => (separator_notMem_text o).1
    have hcommas := splitAtChar_operandsText (List.cons_ne_nil o os) fun o _ => (separator_notMem_text o).2
    show readLine (m.text ++ ' ' :: operandsText (o :: os)) = _
    rw [readLine, splitAtChar_append hm, splitAtChar_of_notMem hspace]
    simp only [find?_mnemonic_text, hcommas, readOperands_map_text h]

theorem addrOk_of_immOk {n : Nat} (h : immOk n = true) : addrOk n = true :=
  decide_eq_true (Nat.lt_trans (of_decide_eq_true h) (by decide))

theorem addrOk_of_countOk {n : Nat} (h : countOk n = true) : addrOk n = true :=
  decide_eq_true (Nat.lt_trans (of_decide_eq_true h) (by decide))

/-- Form by form of R84 and R89: the checks of a form cover each operand it has. -/
theorem inRange_of_wellFormed {l : AsmLine} (h : l.wellFormed = true) : ∀ o ∈ l.operands, o.InRange := by
  have hV0 : regOk 0 = true := rfl
  unfold AsmLine.wellFormed at h
  split at h <;> simp_all [AsmOperand.InRange, addrOk_of_immOk, addrOk_of_countOk]

/-- Settles O10: the text part holds of every well-formed line, and an instruction's is one. -/
theorem assemblyRoundTrips : Obligations.AssemblyRoundTrips :=
  fun i => ⟨toAsm_wellFormed i, toAsm_assemble i, readLine_text (inRange_of_wellFormed (toAsm_wellFormed i))⟩

end Sys2Proof
end

section
/-! SUPPORT. The statements about the CPU step (40_cycle.md): what each status and the run flag make of it, the key-wait
poll, and how it ends when it faults. -/

namespace Sys2Proof.Machine

section
variable {s t : State} {i : Instr} {c : Cause}

/-! ### The CPU's three ways to step (40_cycle.md R91) -/

theorem step_cleared_run (hc : CpuTurn s) (hrun : s.run = false) (hs : s.status = .running ∨ s.status = .waitingKey) :
    step s = .next s.granted.stop := by simp [step_cpu hc hs, hrun]

theorem step_running (hc : CpuTurn s) (hs : s.status = .running) (hrun : s.run = true) :
    step s = instructionStep s.granted := by simp [step_cpu hc (.inl hs), hs, hrun]

theorem step_waiting (hc : CpuTurn s) (hs : s.status = .waitingKey) (hrun : s.run = true) :
    step s = .next s.granted.poll := by simp [step_cpu hc (.inr hs), hs, hrun]

/-! ### The instruction step (40_cycle.md R92-R96) -/

theorem instructionStep_of_decodes (hf : fetchable s.pc = true) (hd : decodeWord s.fetchWord = .ok i) :
    instructionStep s = exec i s := by simp only [instructionStep, hf, hd, if_true]

theorem instructionStep_next (s : State) : ∃ t, instructionStep s = .next t := by
  rcases instructionStep_cases s with ⟨-, he⟩ | ⟨-, -, he⟩ | ⟨i, -, -, he⟩
  · exact ⟨_, he⟩
  · exact ⟨_, he⟩
  · rw [he]
    exact exec_next i s

/-! ### How an instruction ends when it faults (60_exceptions.md R151-R153, R156) -/

/-- The one cause that an instruction's own check can raise. -/
def ownCause : Instr → Option Cause
  | .ret _ => some .stackUnderflow
  | .call _ => some .stackOverflow
  | .drw _ _ _ | .ldB _ | .ldStore _ | .ldLoad _ => some .addressRange
  | _ => none

theorem ownCause_cases (h : ownCause i = some c) : c = .stackUnderflow ∨ c = .stackOverflow ∨ c = .addressRange := by
  cases i <;> cases h <;> simp

/-- What an instruction stages on `s`: the fault `c`, or a state that has the status of `s`. -/
def StagesOrFails (c : Cause) (s : State) (r : Except Cause State) : Prop :=
  r = .error c ∨ ∃ u, r = .ok u ∧ u.status = s.status

theorem popPc_stagesOrFails (s : State) : StagesOrFails .stackUnderflow s s.popPc :=
  (popPc_cases s).imp And.right fun ⟨u, _, hu, _, _, heq⟩ => ⟨u, hu, by rw [heq]⟩

theorem push_stagesOrFails (s : State) (a d : Word) :
    StagesOrFails .stackOverflow s ((s.push a).map (fun u => u.setPc d)) := by
  rcases push_cases s a with ⟨-, he⟩ | ⟨u, -, hu, -, -, heq⟩
  · exact .inl (by rw [he]; rfl)
  · exact .inr ⟨u.setPc d, by rw [hu]; rfl, by rw [heq]; rfl⟩

theorem storeBlock_stagesOrFails (s : State) (a : Nat) (bs : List Byte) :
    StagesOrFails .addressRange s (s.storeBlock a bs) := by
  by_cases hr : bs.length = 0 ∨ a + bs.length - 1 ≤ 0xFFF
  · exact .inr ⟨_, storeBlock_ok hr, rfl⟩
  · exact .inl (storeBlock_error hr)

theorem loadBlock_stagesOrFails (s : State) (a n : Nat) {f : List Byte → State} (hf : ∀ bs, (f bs).status = s.status) :
    StagesOrFails .addressRange s ((s.loadBlock a n).map f) := by
  by_cases hr : n = 0 ∨ a + n - 1 ≤ 0xFFF
  · exact .inr ⟨f (readBytes s.mem a n), by rw [loadBlock_ok hr]; rfl, hf _⟩
  · exact .inl (by rw [loadBlock_error hr]; rfl)

/-- A commit that ends FAULTED has discarded what was staged (40_cycle.md R97). -/
theorem complete_faulted {r : Except Cause State} (hr : StagesOrFails c s r) (h : s.complete i r = .next t)
    (hs : s.status ≠ .faulted) (ht : t.status = .faulted) : t = s.raise c (encode i) s.pc := by
  rcases hr with rfl | ⟨u, rfl, hu⟩ <;> cases h
  · rfl
  · exact absurd (hu.symm.trans ht) hs

theorem exec_faulted (h : exec i s = .next t) (hs : s.status ≠ .faulted) (ht : t.status = .faulted) :
    ∃ c, ownCause i = some c ∧ t = s.raise c (encode i) s.pc := by
  cases i with
  | ret z => exact ⟨_, rfl, complete_faulted (popPc_stagesOrFails s.advance) h hs ht⟩
  | call nnn => exact ⟨_, rfl, complete_faulted (push_stagesOrFails s.advance _ _) h hs ht⟩
  | ldB x | ldStore x => exact ⟨_, rfl, complete_faulted (storeBlock_stagesOrFails s.advance _ _) h hs ht⟩
  | drw x y n | ldLoad x =>
    refine ⟨_, rfl, complete_faulted (loadBlock_stagesOrFails s _ _ ?_) h hs ht⟩
    exact fun _ => rfl
  | ldVxK x =>
    cases h
    exact nomatch ht
  | seKk | sneKk | seXy | sneXy | skp | sknp =>
    cases h
    exact absurd ((skipIf_status ..).symm.trans ht) hs
  | _ =>
    cases h
    exact absurd ht hs

/-- R156: the record names the word fetched, which for an instruction is its own encoding, and 0 when none was fetched. -/
theorem instructionStep_faulted (h : instructionStep s = .next t) (hs : s.status ≠ .faulted) (ht : t.status = .faulted) :
    ∃ c, c ≠ .none ∧ c ≠ .loadOverflow ∧ t = s.raise c (if c = .fetchRange then 0x0000 else s.fetchWord) s.pc := by
  rcases instructionStep_cases s with ⟨-, he⟩ | ⟨-, -, he⟩ | ⟨i, -, hd, he⟩ <;> rw [he] at h
  · cases h
    exact ⟨.fetchRange, nofun, nofun, rfl⟩
  · cases h
    exact ⟨.invalidOpcode, nofun, nofun, rfl⟩
  · obtain ⟨c, hc, heq⟩ := exec_faulted h hs ht
    rw [encode_of_decodeWord hd] at heq
    refine ⟨c, ?_⟩
    rcases ownCause_cases hc with rfl | rfl | rfl <;> exact ⟨nofun, nofun, heq⟩

/-! ### The key-wait poll (40_cycle.md R99) -/

/-- Key `k` is 1 now and was 0 at the last sample. -/
theorem fresh_iff (s : State) {k : Nat} (hk : k < 16) : (s.keys &&& ~~~s.prevKeys).getLsbD k = true ↔
    s.keys.getLsbD k = true ∧ s.prevKeys.getLsbD k = false := by simp [hk]

theorem poll_of_lowest_fresh {k : Nat} (hk : k < 16) (hfresh : (s.keys &&& ~~~s.prevKeys).getLsbD k = true)
    (hleast : ∀ j, j < k → (s.keys &&& ~~~s.prevKeys).getLsbD j ≠ true) :
    s.poll = { s.setV s.waitReg (BitVec.ofNat 8 k) with status := .running } := by
  rcases poll_cases s with ⟨k', -, hfresh', hleast', heq⟩ | ⟨hnone, -⟩
  · have hle : k ≤ k' := Nat.le_of_not_lt fun hlt => hleast k' hlt hfresh'
    have hge : k' ≤ k := Nat.le_of_not_lt fun hlt => by simp [hleast' k hlt] at hfresh
    rw [heq, Nat.le_antisymm hge hle]
  · simp [hnone k hk] at hfresh

theorem poll_of_no_fresh (hnone : ∀ k, k < 16 → (s.keys &&& ~~~s.prevKeys).getLsbD k ≠ true) :
    s.poll = { s with prevKeys := s.keys } := by
  rcases poll_cases s with ⟨k, hk, hfresh, -, -⟩ | ⟨-, heq⟩
  · exact absurd hfresh (hnone k hk)
  · exact heq

end

/-! ### The statements -/

/-- Settles O14: the stop is the first case of the CPU's turn. -/
theorem clearedRunFlagStops : Obligations.ClearedRunFlagStops := fun _ => step_cleared_run

/-- Settles O11: the granted state has the `pc` and the memory of `s`. -/
theorem stepRunsDecodedInstruction : Obligations.StepRunsDecodedInstruction := by
  intro s i hc hs hrun hlow hhigh hd
  have hf : fetchable s.granted.pc = true := (fetchable_iff s.pc).2 ⟨hlow, hhigh⟩
  rw [step_running hc hs hrun, instructionStep_of_decodes hf hd]

/-- Settles O15: the least fresh key is the one the poll finds. -/
theorem pollTakesLowestFreshKey : Obligations.PollTakesLowestFreshKey := by
  intro s hc hs hrun
  rw [step_waiting hc hs hrun]
  refine ⟨fun k hk hnow hbefore hleast => ?_, fun hnone => ?_⟩
  · have hpoll := poll_of_lowest_fresh (s := s.granted) hk ((fresh_iff _ hk).2 ⟨hnow, hbefore⟩)
      fun j hj => mt (fresh_iff _ (Nat.lt_trans hj hk)).1 (hleast j hj)
    refine ⟨_, congrArg _ hpoll, ?_, rfl, fun r hr => ?_, rfl⟩
    · have hV := getV_setV_same s.granted s.waitReg (BitVec.ofNat 8 k)
      exact (congrArg BitVec.toNat hV).trans (Nat.mod_eq_of_lt (by omega))
    · exact getV_setV_ne s.granted _ (List.ne_of_not_mem_cons hr)
  · rw [poll_of_no_fresh (s := s.granted) fun k hk => mt (fresh_iff _ hk).1 (hnone k hk)]
    rfl

/-- Settles O18: a stop, a poll and an instruction step each answer, and each keeps the inputs of the granted state. -/
theorem liveCpuStepAnswersNext : Obligations.LiveCpuStepAnswersNext := by
  intro s hc hs
  cases hrun : s.run with
  | false => exact ⟨_, step_cleared_run hc hrun hs, rfl, rfl⟩
  | true =>
    rcases hs with hs | hs
    · obtain ⟨t, ht⟩ := instructionStep_next s.granted
      obtain ⟨-, -, hopen, hpending⟩ := instructionStep_keeps_inputs ht
      exact ⟨t, (step_running hc hs hrun).trans ht, hopen, hpending⟩
    · obtain ⟨-, -, hopen, hpending⟩ := poll_keeps_inputs s.granted
      exact ⟨_, step_waiting hc hs hrun, hopen, hpending⟩

/-- Settles O19: a stop is no fault, so the step is an instruction step of the granted state. -/
theorem faultingStepIsPrecise : Obligations.FaultingStepIsPrecise := by
  intro s t hc hs h ht
  have hlive : s.granted.status ≠ .faulted := fun hf => nomatch hs.symm.trans hf
  cases hrun : s.run with
  | false =>
    rw [step_cleared_run hc hrun (.inl hs)] at h
    cases h
    exact nomatch ht
  | true =>
    rw [step_running hc hs hrun] at h
    exact instructionStep_faulted h hlive ht

end Sys2Proof.Machine
end

section
/-! SUPPORT. The statements about control transfer (41_control_flow.md): jumps, skips, and the two stack instructions. -/

namespace Sys2Proof.Machine

/-! ### Jumps and skips: only `pc` changes -/

/-- R112: the sum of a 12-bit and an 8-bit number fits a word. -/
theorem addrWord_add_byteWord_toNat (nnn : Addr12) (b : Byte) :
    (addrWord nnn + byteWord b).toNat = nnn.toNat + b.toNat := by
  have := nnn.isLt
  have := b.isLt
  simp only [BitVec.toNat_add, addrWord_toNat, byteWord, BitVec.toNat_setWidth]
  omega

theorem setPc_keeps (s : State) (a : Word) : KeepsRegsBut [] s (s.setPc a) ∧ KeepsAllBut [] s (s.setPc a) :=
  ⟨fun r _ => getV_setPc s r a, (keepsAllBut_setPc a).2 keepsAllBut_refl⟩

/-- A skip after the prologue (40_cycle.md R94, R104), its condition given as a proposition. -/
theorem next_skipIf_effect (s : State) {c : Bool} {p : Prop} [Decidable p] (hc : c = true ↔ p) :
    ∃ t, (.next (s.advance.skipIf c) : Answer) = .next t ∧ t.pc = (if p then s.pc + 4 else s.pc + 2) ∧
      KeepsRegsBut [] s t ∧ KeepsAllBut [] s t := by
  refine ⟨_, rfl, ?_, fun r _ => by simp, by simp⟩
  simp only [skipIf_pc, advance_pc, hc, BitVec.add_assoc]
  rfl

/-! ### CALL and RET: `pc`, `sp` and the slots change -/

section
variable {s t : State} {nnn : Addr12} {z : Nibble}

theorem stackWrite_keeps (h : t = { s with pc := t.pc, sp := t.sp, stack := t.stack }) :
    KeepsRegsBut [] s t ∧ KeepsAllBut [.stack] s t := by
  rw [h]
  exact ⟨fun _ _ => rfl, keepsAllBut_stackWrite (by simp) _ _ _⟩

theorem exec_call (s : State) (nnn : Addr12) : exec (.call nnn) s =
    s.complete (.call nnn) ((s.advance.push s.advance.pc).map (fun u => u.setPc (addrWord nnn))) := rfl

theorem exec_ret (s : State) (z : Nibble) : exec (.ret z) s = s.complete (.ret z) s.advance.popPc := rfl

theorem exec_call_of_room (hsp : s.sp.val < 16) :
    ∃ t, exec (.call nnn) s = .next t ∧ t.pc = addrWord nnn ∧ t.sp.val = s.sp.val + 1 ∧
      (∀ k, 1 ≤ k → k ≤ 16 → t.slot k = if k = s.sp.val + 1 then s.pc + 2 else s.slot k) ∧
      t = { s with pc := t.pc, sp := t.sp, stack := t.stack } := by
  rcases push_cases s.advance s.advance.pc with ⟨hfull, -⟩ | ⟨u, -, hu, hsp', hslot, heq⟩
  · exact absurd hfull (Nat.ne_of_lt hsp)
  · refine ⟨u.setPc (addrWord nnn), ?_, rfl, hsp', hslot, by rw [heq]; rfl⟩
    rw [exec_call, hu]
    rfl

theorem exec_call_of_full (hsp : s.sp.val = 16) :
    exec (.call nnn) s = .next (s.raise .stackOverflow (0x2#4 ++ nnn) s.pc) := by
  rcases push_cases s.advance s.advance.pc with ⟨-, he⟩ | ⟨u, hlt, -⟩
  · rw [exec_call, he]
    rfl
  · exact absurd hsp (Nat.ne_of_lt hlt)

theorem exec_ret_of_live (hsp : 1 ≤ s.sp.val) :
    ∃ t, exec (.ret z) s = .next t ∧ t.pc = s.slot s.sp.val ∧ t.sp.val = s.sp.val - 1 ∧
      t = { s with pc := t.pc, sp := t.sp } := by
  rcases popPc_cases s.advance with ⟨hempty, -⟩ | ⟨u, -, hu, hpc, hsp', heq⟩
  · exact absurd hempty (Nat.ne_of_gt hsp)
  · refine ⟨u, ?_, hpc, hsp', heq⟩
    rw [exec_ret, hu]
    rfl

theorem exec_ret_of_empty (hsp : s.sp.val = 0) :
    exec (.ret z) s = .next (s.raise .stackUnderflow (0x0#4 ++ z ++ 0xEE#8) s.pc) := by
  rcases popPc_cases s.advance with ⟨-, he⟩ | ⟨u, hlive, -⟩
  · rw [exec_ret, he]
    rfl
  · exact absurd hsp (Nat.ne_of_gt hlive)

end

/-! ### The statements -/

/-- Settles O26: a jump writes `pc` and nothing else. -/
theorem jumpSetsPc : Obligations.JumpSetsPc := fun s nnn =>
  ⟨decodeWord_encode (.jp nnn), s.setPc (addrWord nnn), rfl, addrWord_toNat nnn, setPc_keeps s _⟩

/-- Settles O32: `V[0]` is read before the prologue, which changes no register. -/
theorem indexedJumpAddsV0 : Obligations.IndexedJumpAddsV0 := fun s nnn =>
  ⟨decodeWord_encode (.jpV0 nnn), s.setPc (addrWord nnn + byteWord (s.getV 0)), rfl,
    addrWord_add_byteWord_toNat nnn _, setPc_keeps s _⟩

/-- Settles O30: each skip is the prologue and a conditional one, as its comparison says. -/
theorem skipsOnImmediate : Obligations.SkipsOnImmediate := fun s x kk =>
  ⟨decodeWord_encode (.seKk x kk), decodeWord_encode (.sneKk x kk),
    next_skipIf_effect s beq_iff_eq, next_skipIf_effect s bne_iff_ne⟩

/-- Settles O31: the ignored bits stand in the instruction, and neither meaning reads them. -/
theorem skipsOnRegisters : Obligations.SkipsOnRegisters := fun s x y z =>
  ⟨decodeWord_encode (.seXy x y z), decodeWord_encode (.sneXy x y z),
    next_skipIf_effect s beq_iff_eq, next_skipIf_effect s bne_iff_ne⟩

/-- Settles O27: the pushed slot is `sp+1`, and every other one is read as before. -/
theorem callPushesReturnAddress : Obligations.CallPushesReturnAddress := by
  refine fun s nnn => ⟨decodeWord_encode (.call nnn), fun hsp => ?_, fun hsp => ⟨_, exec_call_of_full hsp, rfl⟩⟩
  obtain ⟨t, ht, hpc, hsp', hslot, heq⟩ := exec_call_of_room (nnn := nnn) hsp
  refine ⟨t, ht, by rw [hpc, addrWord_toNat], hsp', ?_, fun k h1 h16 hk => ?_, stackWrite_keeps heq⟩
  · rw [hslot _ (by omega) (by omega), if_pos rfl]
  · rw [hslot k h1 h16, if_neg hk]

/-- Settles O28: a pop writes no slot. -/
theorem returnPopsAddress : Obligations.ReturnPopsAddress := by
  refine fun s z => ⟨decodeWord_encode (.ret z), fun hsp => ?_, fun hsp => ⟨_, exec_ret_of_empty hsp, rfl⟩⟩
  obtain ⟨t, ht, hpc, hsp', heq⟩ := exec_ret_of_live (z := z) hsp
  have hstack : t.stack = s.stack := by rw [heq]
  exact ⟨t, ht, hpc, hsp', hstack, stackWrite_keeps (hstack ▸ heq)⟩

/-- Settles O29: the slot that RET reads, `S[sp+1]`, is the one that CALL has written. -/
theorem callThenReturnResumes : Obligations.CallThenReturnResumes := by
  intro s nnn z hsp
  obtain ⟨t, ht, -, hspt, hslot, heqt⟩ := exec_call_of_room (nnn := nnn) hsp
  obtain ⟨u, hu, hpc, hspu, hequ⟩ := exec_ret_of_live (s := t) (z := z) (by omega)
  have htop : t.slot t.sp.val = s.pc + 2 := by rw [hspt, hslot _ (by omega) (by omega), if_pos rfl]
  refine ⟨t, u, ht, hu, hpc.trans htop, Fin.ext (by omega), stackWrite_keeps ?_⟩
  rw [hequ, heqt]

end Sys2Proof.Machine
end

section
/-! SUPPORT. The statements about the register and ALU instructions (42_alu.md): what an instruction that writes `Vx`,
and perhaps VF, leaves unchanged, and the numbers that the written bytes stand for. -/

namespace Sys2Proof.Machine

/-! ### What a register write leaves unchanged -/

section
variable {regs : List Reg} {s t : State} {x : Reg}

theorem keepsRegsBut_setV (h : KeepsRegsBut regs s t) (hx : x ∈ regs) (b : Byte) :
    KeepsRegsBut regs s (t.setV x b) := fun r hr => by
  rw [getV_setV_ne t b (ne_of_mem_of_not_mem hx hr).symm, h r hr]

theorem keepsRegsBut_resultThenFlag (h : KeepsRegsBut regs s t) (hx : x ∈ regs) (hF : VF ∈ regs) (b : Byte) (f : Bool) :
    KeepsRegsBut regs s (t.resultThenFlag x b f) :=
  keepsRegsBut_setV (keepsRegsBut_setV h hx b) hF (flagByte f)

theorem keepsRegsBut_flagThenResult (h : KeepsRegsBut regs s t) (hx : x ∈ regs) (hF : VF ∈ regs) (b : Byte) (f : Bool) :
    KeepsRegsBut regs s (t.flagThenResult x b f) :=
  keepsRegsBut_setV (keepsRegsBut_setV h hF (flagByte f)) hx b

theorem keepsRegsBut_advance (regs : List Reg) (s : State) : KeepsRegsBut regs s s.advance :=
  fun r _ => getV_advance s r

end

section
variable (s : State) (x : Reg) (b : Byte) (f : Bool)

/-- The frame of an instruction that writes `Vx` alone. -/
theorem advance_setV_frame : (s.advance.setV x b).pc = s.pc + 2 ∧
    KeepsRegsBut [x] s (s.advance.setV x b) ∧ KeepsAllBut [] s (s.advance.setV x b) :=
  ⟨rfl, keepsRegsBut_setV (keepsRegsBut_advance _ s) (by simp) b, by simp⟩

/-- The frame of an instruction that writes `Vx`, then VF. -/
theorem advance_resultThenFlag_frame : (s.advance.resultThenFlag x b f).pc = s.pc + 2 ∧
    KeepsRegsBut [x, VF] s (s.advance.resultThenFlag x b f) ∧ KeepsAllBut [] s (s.advance.resultThenFlag x b f) :=
  ⟨rfl, keepsRegsBut_resultThenFlag (keepsRegsBut_advance _ s) (by simp) (by simp) b f, by simp⟩

/-- The frame of an instruction that writes VF, then `Vx`. -/
theorem advance_flagThenResult_frame : (s.advance.flagThenResult x b f).pc = s.pc + 2 ∧
    KeepsRegsBut [x, VF] s (s.advance.flagThenResult x b f) ∧ KeepsAllBut [] s (s.advance.flagThenResult x b f) :=
  ⟨rfl, keepsRegsBut_flagThenResult (keepsRegsBut_advance _ s) (by simp) (by simp) b f, by simp⟩

/-! ### What `Vx` and VF hold after both are written (42_alu.md R115) -/

theorem getV_resultThenFlag_VF : (s.resultThenFlag x b f).getV VF = flagByte f := by
  rw [getV_resultThenFlag, if_pos rfl]

theorem getV_resultThenFlag_same (hx : x ≠ VF) : (s.resultThenFlag x b f).getV x = b := by
  rw [getV_resultThenFlag, if_neg hx, if_pos rfl]

theorem getV_flagThenResult_same : (s.flagThenResult x b f).getV x = b := by
  rw [getV_flagThenResult, if_pos rfl]

theorem getV_flagThenResult_VF (hx : x ≠ VF) : (s.flagThenResult x b f).getV VF = flagByte f := by
  rw [getV_flagThenResult, if_neg hx.symm, if_pos rfl]

end

/-! ### The numbers that results and flags stand for (42_alu.md R114) -/

section
variable (a b : Byte)

/-- The minuend is raised by 256, so that the subtraction of naturals does not end at 0. -/
theorem toNat_sub_byte : (a - b).toNat = (a.toNat + 256 - b.toNat) % 256 := by
  have := b.isLt
  rw [BitVec.toNat_sub]
  omega

theorem toNat_shr_byte : (a >>> 1).toNat = a.toNat / 2 := by
  rw [BitVec.toNat_ushiftRight, Nat.shiftRight_eq_div_pow, pow_one]

theorem toNat_shl_byte : (a <<< 1).toNat = a.toNat * 2 % 256 := by
  rw [BitVec.toNat_shiftLeft, Nat.shiftLeft_eq, pow_one]

theorem flagByte_carryOut : flagByte (carryOut a b) = if a.toNat + b.toNat > 255 then 1 else 0 := by
  simp only [flagByte, carryOut, decide_eq_true_eq]

theorem flagByte_noBorrow : flagByte (noBorrow a b) = if a.toNat ≥ b.toNat then 1 else 0 := by
  simp only [flagByte, noBorrow, decide_eq_true_eq]

theorem toNat_flagByte (f : Bool) : (flagByte f).toNat = f.toNat := by cases f <;> rfl

theorem toNat_flagByte_lowBit : (flagByte (lowBit a)).toNat = a.toNat % 2 := by
  rw [toNat_flagByte, lowBit, BitVec.getLsbD, Nat.toNat_testBit, pow_zero, Nat.div_one]

theorem toNat_flagByte_highBit : (flagByte (highBit a)).toNat = a.toNat / 128 := by
  have := a.isLt
  rw [toNat_flagByte, highBit, BitVec.getLsbD, Nat.toNat_testBit]
  omega

end

/-! ### Forms that several instructions share -/

section
variable (s : State) (x : Reg)

/-- LD, OR, AND and XOR: a result given bit by bit. -/
theorem next_bitwise_effect {a b r : Byte} {f : Bool → Bool → Bool}
    (hr : ∀ k, k < 8 → r.getLsbD k = f (a.getLsbD k) (b.getLsbD k)) :
    ∃ t, (.next (s.advance.setV x r) : Answer) = .next t ∧
      (∀ k, k < 8 → (t.getV x).getLsbD k = f (a.getLsbD k) (b.getLsbD k)) ∧
      t.pc = s.pc + 2 ∧ KeepsRegsBut [x] s t ∧ KeepsAllBut [] s t :=
  ⟨_, rfl, by rwa [getV_setV_same], advance_setV_frame s x r⟩

/-- SUB and SUBN: minuend `a`, subtrahend `b`. -/
theorem next_subtract_effect (a b : Byte) :
    ∃ t, (.next (s.advance.flagThenResult x (a - b) (noBorrow a b)) : Answer) = .next t ∧
      (t.getV x).toNat = (a.toNat + 256 - b.toNat) % 256 ∧
      (x ≠ VF → t.getV VF = if a.toNat ≥ b.toNat then 1 else 0) ∧
      t.pc = s.pc + 2 ∧ KeepsRegsBut [x, VF] s t ∧ KeepsAllBut [] s t := by
  refine ⟨_, rfl, ?_, fun hx => ?_, advance_flagThenResult_frame s x _ _⟩
  · rw [getV_flagThenResult_same, toNat_sub_byte]
  · rw [getV_flagThenResult_VF _ _ _ _ hx, flagByte_noBorrow]

end

theorem nextDraw_of_cons {s : State} {b : Byte} {rest : List Byte} (h : s.rnd = b :: rest) : s.nextDraw = b := by
  rw [State.nextDraw, h]

/-! ### The statements -/

/-- Settles O33: the write of `Vx` after the prologue. -/
theorem loadImmediateSetsRegister : Obligations.LoadImmediateSetsRegister := fun s x kk =>
  ⟨decodeWord_encode (.ldKk x kk), _, rfl, getV_setV_same _ x kk, advance_setV_frame s x kk⟩

/-- Settles O34: the addition of bytes is the addition modulo 256. -/
theorem addImmediateWrapsWithoutFlag : Obligations.AddImmediateWrapsWithoutFlag := by
  refine fun s x kk => ⟨decodeWord_encode (.addKk x kk), _, rfl, ?_, advance_setV_frame s x _⟩
  rw [getV_setV_same, BitVec.toNat_add]

/-- Settles O35: each operation on bytes is the operation on their bits. -/
theorem copyAndLogicSetRegister : Obligations.CopyAndLogicSetRegister := by
  refine fun s x y => ⟨decodeWord_encode (.ldXy x y), decodeWord_encode (.orXy x y), decodeWord_encode (.andXy x y),
    decodeWord_encode (.xorXy x y), ?_⟩
  rintro i f (⟨rfl, rfl⟩ | ⟨rfl, rfl⟩ | ⟨rfl, rfl⟩ | ⟨rfl, rfl⟩)
  · exact next_bitwise_effect s x (a := s.getV x) (b := s.getV y) (f := fun _ b => b) fun _ _ => rfl
  · exact next_bitwise_effect s x fun _ _ => BitVec.getLsbD_or
  · exact next_bitwise_effect s x fun _ _ => BitVec.getLsbD_and
  · exact next_bitwise_effect s x fun _ _ => BitVec.getLsbD_xor

/-- Settles O36: VF is written last, so the carry stands for every `x`. -/
theorem addRegistersSetsCarry : Obligations.AddRegistersSetsCarry := by
  refine fun s x y => ⟨decodeWord_encode (.addXy x y), _, rfl, fun hx => ?_, ?_, advance_resultThenFlag_frame s x _ _⟩
  · rw [getV_resultThenFlag_same _ _ _ _ hx, BitVec.toNat_add]
  · rw [getV_resultThenFlag_VF, flagByte_carryOut]

/-- Settles O37: SUB and SUBN differ in which operand is the minuend. -/
theorem subtractSetsNoBorrow : Obligations.SubtractSetsNoBorrow := fun s x y =>
  ⟨decodeWord_encode (.subXy x y), decodeWord_encode (.subnXy x y),
    next_subtract_effect s x (s.getV x) (s.getV y), next_subtract_effect s x (s.getV y) (s.getV x)⟩

/-- Settles O38: `Vx` is written last, so the shifted byte stands for every `x`. -/
theorem shiftsCaptureTheBitShiftedOut : Obligations.ShiftsCaptureTheBitShiftedOut := by
  refine fun s x z => ⟨decodeWord_encode (.shr x z), decodeWord_encode (.shl x z),
    ⟨_, rfl, ?_, fun hx => ?_, advance_flagThenResult_frame s x _ _⟩,
    ⟨_, rfl, ?_, fun hx => ?_, advance_flagThenResult_frame s x _ _⟩⟩
  · rw [getV_flagThenResult_same, toNat_shr_byte]
  · rw [getV_flagThenResult_VF _ _ _ _ hx, toNat_flagByte_lowBit]
  · rw [getV_flagThenResult_same, toNat_shl_byte]
  · rw [getV_flagThenResult_VF _ _ _ _ hx, toNat_flagByte_highBit]

/-- Settles O39: the rows of R115 are the statements about the five instructions (O36, O37, O38) at `x` or `y` = F. -/
theorem flagRegisterAsDestination : Obligations.FlagRegisterAsDestination := by
  intro s y z
  obtain ⟨-, tAdd, hAdd, -, hcarry, -⟩ := addRegistersSetsCarry s VF y
  obtain ⟨-, -, ⟨tSub, hSub, hdiff, -⟩, ⟨tSubn, hSubn, hdiffn, -⟩⟩ := subtractSetsNoBorrow s VF y
  obtain ⟨-, -, ⟨tShr, hShr, hhalf, -⟩, ⟨tShl, hShl, hdouble, -⟩⟩ := shiftsCaptureTheBitShiftedOut s VF z
  refine ⟨⟨tAdd, hAdd, hcarry⟩, ⟨tSub, hSub, hdiff⟩, ⟨tShr, hShr, hhalf⟩, ⟨tSubn, hSubn, hdiffn⟩,
    ⟨tShl, hShl, hdouble⟩, fun hy => ?_⟩
  obtain ⟨-, tAdd', hAdd', hsum, -⟩ := addRegistersSetsCarry s y VF
  obtain ⟨-, -, ⟨tSub', hSub', hdiff', -⟩, ⟨tSubn', hSubn', hdiffn', -⟩⟩ := subtractSetsNoBorrow s y VF
  exact ⟨⟨tAdd', hAdd', hsum hy⟩, ⟨tSub', hSub', hdiff'⟩, ⟨tSubn', hSubn', hdiffn'⟩⟩

/-- Settles O40: the draw the masked byte comes from is the one that is taken off the queue. -/
theorem randomByteIsMasked : Obligations.RandomByteIsMasked := fun s x kk =>
  ⟨decodeWord_encode (.rnd x kk), s.advance.takeDraw.setV x (s.nextDraw &&& kk), s.nextDraw, rfl,
    getV_setV_same _ x _, fun _ _ hq => ⟨nextDraw_of_cons hq, congrArg List.tail hq⟩, congrArg List.tail, rfl, rfl,
    keepsRegsBut_setV (keepsRegsBut_advance _ s) (by simp) _, by simp⟩

end Sys2Proof.Machine
end

section
/-! SUPPORT. The statements about the index register and memory (43_index_memory.md): what a write of `I`, a block store
and a block load do and leave unchanged, and the font after a reset. -/

namespace Sys2Proof.Machine

/-! ### The instructions that write `I` -/

/-- The frame of an instruction that writes `I` alone. -/
theorem advance_setI_frame (s : State) (a : Word) : (s.advance.setI a).pc = s.pc + 2 ∧
    KeepsRegsBut [] s (s.advance.setI a) ∧ KeepsAllBut [.index] s (s.advance.setI a) :=
  ⟨rfl, keepsRegsBut_advance [] s, by simp⟩

/-- R130: `I` has 16 bits, so the sum is taken modulo 65536. -/
theorem add_byteWord_toNat (a : Word) (b : Byte) : (a + byteWord b).toNat = (a.toNat + b.toNat) % 65536 := by
  rw [BitVec.toNat_add, byteWord, BitVec.toNat_setWidth_of_le (by decide)]

/-- R132: the last glyph begins at 75, well inside 16 bits. -/
theorem glyphAddr_toNat (b : Byte) : (glyphAddr b).toNat = 5 * (b.toNat % 16) := by
  have : b.toNat % 16 < 16 := Nat.mod_lt _ (by decide)
  rw [glyphAddr, BitVec.toNat_ofNat, Config.fontBase, Config.glyphBytes, Nat.zero_add, Nat.mod_eq_of_lt (by omega)]

/-- Settles O41: the 12-bit address is extended with zeros. -/
theorem loadIndexSetsI : Obligations.LoadIndexSetsI := fun s nnn =>
  ⟨decodeWord_encode (.ldI nnn), _, rfl, addrWord_toNat nnn, advance_setI_frame s _⟩

/-- Settles O42: `I` and `V[x]` are read before the prologue, which changes neither. -/
theorem addIndexWrapsWithoutFlag : Obligations.AddIndexWrapsWithoutFlag := fun s x =>
  ⟨decodeWord_encode (.addI x), _, rfl, add_byteWord_toNat s.i _, advance_setI_frame s _⟩

/-- Settles O43: the glyph's address is that of the low nibble's digit. -/
theorem fontAddressOfDigit : Obligations.FontAddressOfDigit := fun s x =>
  ⟨decodeWord_encode (.ldF x), _, rfl, glyphAddr_toNat _, advance_setI_frame s _⟩

/-! ### The commits of a block store and a block load (20_memory.md R60) -/

section
variable {s : State} {i : Instr} {a : Nat} {bs : List Byte}

/-- A block store in range: the bytes stand from `a` up, and all but they and `pc` is unchanged. -/
theorem complete_storeBlock_effect (h : a + bs.length - 1 ≤ 0xFFF) :
    ∃ t, s.complete i (s.advance.storeBlock a bs) = .next t ∧
      (∀ k, k < bs.length → readByte t.mem (a + k) = bs.getD k 0) ∧ KeepsMemoryOutside a bs.length s t ∧
      t.pc = s.pc + 2 ∧ KeepsRegsBut [] s t ∧ KeepsAllBut [.memory] s t := by
  refine ⟨{ s.advance with mem := writeBytes s.mem a bs }, ?_, fun _ => readByte_writeBytes_inside,
    fun _ => readByte_writeBytes_outside, rfl, fun _ _ => rfl, keepsAllBut_memWrite (by simp) _ _⟩
  rw [storeBlock_ok (.inr h), complete_ok, advance_mem]

/-- A block store that reaches past 0xFFF stores nothing. -/
theorem complete_storeBlock_faulted (hne : bs.length ≠ 0) (h : 0xFFF < a + bs.length - 1) :
    ∃ t, s.complete i (s.advance.storeBlock a bs) = .next t ∧ FaultedAs .addressRange (encode i) s t := by
  rw [storeBlock_error (not_or.2 ⟨hne, Nat.not_le.2 h⟩)]
  exact ⟨_, rfl, rfl⟩

/-- A block load that reaches past 0xFFF loads nothing. -/
theorem complete_loadBlock_faulted {n : Nat} {f : List Byte → State} (hne : n ≠ 0) (h : 0xFFF < a + n - 1) :
    ∃ t, s.complete i ((s.loadBlock a n).map f) = .next t ∧ FaultedAs .addressRange (encode i) s t := by
  rw [loadBlock_error (not_or.2 ⟨hne, Nat.not_le.2 h⟩)]
  exact ⟨_, rfl, rfl⟩

end

/-! ### LD B,Vx, LD [I],Vx and LD Vx,[I] -/

section
variable (s : State) (x : Reg)

theorem exec_ldB :
    exec (.ldB x) s = s.complete (.ldB x) (s.advance.storeBlock s.i.toNat (bcdDigits (s.getV x))) := rfl

theorem exec_ldStore :
    exec (.ldStore x) s = s.complete (.ldStore x) (s.advance.storeBlock s.i.toNat (s.firstRegs x)) := rfl

theorem exec_ldLoad : exec (.ldLoad x) s =
    s.complete (.ldLoad x) ((s.loadBlock s.i.toNat (x.toNat + 1)).map (fun bs => s.advance.setFirstRegs bs)) := rfl

end

/-- R133: there are three digits, hundreds, tens and units. -/
@[simp] theorem bcdDigits_length (b : Byte) : (bcdDigits b).length = 3 := rfl

/-- Each digit is less than 256, so that its byte is the digit. -/
theorem bcdDigits_getD_toNat (b : Byte) :
    ((bcdDigits b).getD 0 0).toNat = b.toNat / 100 ∧ ((bcdDigits b).getD 1 0).toNat = b.toNat / 10 % 10 ∧
      ((bcdDigits b).getD 2 0).toNat = b.toNat % 10 := by
  have := b.isLt
  refine ⟨Nat.mod_eq_of_lt ?_, Nat.mod_eq_of_lt ?_, Nat.mod_eq_of_lt ?_⟩ <;> omega

/-- What a register holds after the load of a block of memory from V0 up. -/
theorem getV_setFirstRegs_readBytes (s : State) (m : Memory) (a n : Nat) (r : Reg) :
    (s.setFirstRegs (readBytes m a n)).getV r = if r.toNat < n then readByte m (a + r.toNat) else s.getV r := by
  rw [getV_setFirstRegs, readBytes_length]
  split
  · exact readBytes_getD ‹_›
  · rfl

/-- Settles O44: the three digits are the block that is stored at `I`. -/
theorem bcdStoresDecimalDigits : Obligations.BcdStoresDecimalDigits := by
  refine fun s x => ⟨decodeWord_encode (.ldB x), fun h => ?_, fun h => ?_⟩ <;> rw [exec_ldB]
  · obtain ⟨t, ht, hread, hframe⟩ := complete_storeBlock_effect (s := s) (i := .ldB x) (bs := bcdDigits (s.getV x)) h
    obtain ⟨hhundreds, htens, hunits⟩ := bcdDigits_getD_toNat (s.getV x)
    refine ⟨t, ht, ?_, ?_, ?_, hframe⟩
    · rw [← hhundreds, ← hread 0 (by simp), Nat.add_zero]
    · rw [← htens, ← hread 1 (by simp)]
    · rw [← hunits, ← hread 2 (by simp)]
  · exact complete_storeBlock_faulted (by simp) h

/-- Settles O45: the block that is stored at `I` holds register `r` at offset `r`. -/
theorem blockStoreWritesRegisters : Obligations.BlockStoreWritesRegisters := by
  refine fun s x => ⟨decodeWord_encode (.ldStore x), fun h => ?_, fun h => ?_⟩ <;> rw [exec_ldStore]
  · have hlen := firstRegs_length s x
    obtain ⟨t, ht, hread, hframe⟩ :=
      complete_storeBlock_effect (s := s) (i := .ldStore x) (a := s.i.toNat) (bs := s.firstRegs x) (by omega)
    refine ⟨t, ht, fun r hr => ?_, hlen ▸ hframe⟩
    rw [hread _ (by omega), firstRegs_getD s hr]
  · exact complete_storeBlock_faulted (by simp) (by simpa using h)

/-- Settles O46: the block that is loaded has `x+1` bytes, so the registers above `x` are out of its reach. -/
theorem blockLoadReadsRegisters : Obligations.BlockLoadReadsRegisters := by
  refine fun s x => ⟨decodeWord_encode (.ldLoad x), fun h => ?_, fun h => ?_⟩ <;> rw [exec_ldLoad]
  · rw [loadBlock_ok (.inr h)]
    refine ⟨_, rfl, fun r => ?_, rfl, by simp⟩
    simp only [getV_setFirstRegs_readBytes, getV_advance, Nat.lt_succ_iff]
  · exact complete_loadBlock_faulted (Nat.succ_ne_zero _) h

/-! ### The font (43_index_memory.md R131) -/

/-- A block inside the font, as a reset leaves it. -/
theorem readBytes_afterReset (s : State) {a n : Nat} (h : a + n ≤ 80) :
    readBytes s.afterReset.mem a n = (Config.fontBytes.drop a).take n := by
  have hlen : Config.fontBytes.length = 80 := rfl
  refine List.ext_getElem (by simp; omega) fun k hk _ => ?_
  have hka : a + k < Config.fontBytes.length := by rw [readBytes_length] at hk; omega
  calc (readBytes s.afterReset.mem a n)[k]
    _ = initialByte (a + k) := by simp only [readBytes, List.getElem_map, List.getElem_range]; rfl
    _ = Config.fontBytes[a + k] := by rw [initialByte_eq_font, List.getD_eq_getElem _ _ hka]
    _ = ((Config.fontBytes.drop a).take n)[k] := by rw [List.getElem_take, List.getElem_drop]

/-- Settles O60: each glyph is five bytes of the font. -/
theorem resetWritesFontGlyphs : Obligations.ResetWritesFontGlyphs := by
  intro s rest hp
  refine ⟨_, step_reset hp, ?_⟩
  simp only [readBytes_afterReset, Nat.reduceAdd, Nat.reduceLeDiff]
  decide

end Sys2Proof.Machine
end

section
/-! SUPPORT. The statements about the display (44_display.md): clearing the screen, and what one draw
and the same draw again do to the pixels and to VF. -/

namespace Sys2Proof.Machine

/-- Settles O47: the pixels are written without being read, so the old screen makes no difference. -/
theorem clearScreenClearsEveryPixel : Obligations.ClearScreenClearsEveryPixel := fun s z =>
  ⟨decodeWord_encode (.cls z), s.advance.setFb clearFb, rfl, fun px py _ _ => pixel_clearFb px py, rfl,
    keepsRegsBut_advance [] s, by simp, fun _ => rfl⟩

/-! ### What DRW commits (44_display.md R139) -/

/-- The state that DRW commits when its sprite is in range. -/
def State.afterDrw (s : State) (x y : Reg) (n : Nibble) : State :=
  s.advance.drawn x y (readBytes s.mem s.i.toNat n.toNat)

/-- A collision: the sprite has a 1 bit on a pixel that is set. -/
def Collides (s : State) (x y : Reg) (n : Nibble) : Prop :=
  ∃ px py, SpriteSets s x y n px py ∧ pixel s.fb px py = true

section
variable (s : State) (x y : Reg) (n : Nibble)

theorem exec_drw : exec (.drw x y n) s =
    s.complete (.drw x y n) ((s.loadBlock s.i.toNat n.toNat).map (fun bs => s.advance.drawn x y bs)) := rfl

theorem exec_drw_of_inRange (h : n.toNat = 0 ∨ s.i.toNat + n.toNat - 1 ≤ 0xFFF) :
    exec (.drw x y n) s = .next (s.afterDrw x y n) := by
  rw [exec_drw, loadBlock_ok h]
  rfl

/-- The pixels the rasteriser flips are those the sprite has a 1 bit on. -/
theorem mem_spriteHits_iff_spriteSets (px py : Nat) :
    (px, py) ∈ spriteHits (startColumn (s.getV x)) (startRow (s.getV y)) 0 (readBytes s.mem s.i.toNat n.toNat) ↔
      SpriteSets s x y n px py := by
  rw [mem_spriteHits, readBytes_length]
  refine exists_congr fun r => exists_congr fun c => and_congr_right fun hr => ?_
  rw [readBytes_getD hr]
  rfl

/-- A sprite has at most 15 rows, fewer than the screen, so no pixel is hit twice. -/
theorem sprite_length_le : (readBytes s.mem s.i.toNat n.toNat).length ≤ 32 := by
  have := n.isLt
  rw [readBytes_length]
  omega

theorem pixel_afterDrw (px py : Nat) [Decidable (SpriteSets s x y n px py)] :
    pixel (s.afterDrw x y n).fb px py = (pixel s.fb px py ^^ decide (SpriteSets s x y n px py)) := by
  obtain ⟨hpixel, -⟩ := draw_spec s.fb (startColumn (s.getV x)) (startRow (s.getV y)) _ (sprite_length_le s n)
  refine (hpixel px py).trans ?_
  simp only [mem_spriteHits_iff_spriteSets]

theorem getV_afterDrw_VF [Decidable (Collides s x y n)] :
    (s.afterDrw x y n).getV VF = if Collides s x y n then 1 else 0 := by
  obtain ⟨-, hcollision⟩ := draw_spec s.fb (startColumn (s.getV x)) (startRow (s.getV y)) _ (sprite_length_le s n)
  simp only [Prod.exists, mem_spriteHits_iff_spriteSets] at hcollision
  refine (getV_setV_same _ VF _).trans ?_
  exact if_congr hcollision rfl rfl

/-- The frame of DRW: `pc` goes on, and of the rest only VF and the display are written. -/
theorem afterDrw_frame : (s.afterDrw x y n).pc = s.pc + 2 ∧
    KeepsRegsBut [VF] s (s.afterDrw x y n) ∧ KeepsAllBut [.display] s (s.afterDrw x y n) :=
  ⟨rfl, fun _ hr => getV_drawn_ne s.advance x y _ (List.ne_of_not_mem_cons hr), by simp [State.afterDrw]⟩

end

/-- Settles O48: the sprite's pixels are flipped once each, so a collision is seen on the screen as it was before. -/
theorem drawFlipsSpritePixels : Obligations.DrawFlipsSpritePixels := by
  classical
  refine fun s x y n => ⟨decodeWord_encode (.drw x y n), fun h => ?_, fun ⟨hne, h⟩ => ?_⟩
  · refine ⟨_, exec_drw_of_inRange s x y n h, fun px py _ _ => ⟨fun hset => ?_, fun hset => ?_⟩, fun hc => ?_,
      fun hclear => ?_, afterDrw_frame s x y n⟩
    · rw [pixel_afterDrw, decide_eq_true hset, Bool.xor_true]
    · rw [pixel_afterDrw, decide_eq_false hset, Bool.xor_false]
    · rw [getV_afterDrw_VF]
      exact if_pos hc
    · rw [getV_afterDrw_VF]
      exact if_neg fun ⟨px, py, hset, hpixel⟩ => absurd hpixel (by simp [hclear px py hset])
  · rw [exec_drw]
    exact complete_loadBlock_faulted (by omega) h

/-! ### The same draw again -/

/-- A draw writes neither the sprite nor `I`, so at the same coordinates the sprite has its 1 bits on the same pixels. -/
theorem spriteSets_afterDrw {s : State} {x y : Reg} {n : Nibble}
    (hx : ((s.afterDrw x y n).getV x).toNat % 64 = (s.getV x).toNat % 64)
    (hy : ((s.afterDrw x y n).getV y).toNat % 32 = (s.getV y).toNat % 32) (px py : Nat) :
    SpriteSets (s.afterDrw x y n) x y n px py ↔ SpriteSets s x y n px py := by
  unfold SpriteSets
  rw [hx, hy]
  rfl

/-- Settles O49: flipping the same pixels twice changes none, and the second draw hits a set pixel where the first hit a
clear one. -/
theorem drawingTwiceRestoresPixels : Obligations.DrawingTwiceRestoresPixels := by
  classical
  intro s x y n h
  obtain ⟨-, hregs, -⟩ := afterDrw_frame s x y n
  refine ⟨_, _, exec_drw_of_inRange s x y n h, exec_drw_of_inRange (s.afterDrw x y n) x y n h,
    fun hx => hregs x (by simpa using hx), fun hy => hregs y (by simpa using hy),
    fun hx hy => ⟨fun px py _ _ => ?_, ?_⟩⟩
  · simp only [pixel_afterDrw, spriteSets_afterDrw hx hy, Bool.xor_assoc, Bool.xor_self, Bool.xor_false]
  · have hflag : ((s.afterDrw x y n).afterDrw x y n).getV VF = 1 ↔ Collides (s.afterDrw x y n) x y n := by
      simp [getV_afterDrw_VF]
    refine hflag.trans (exists₂_congr fun px py => ?_)
    rw [spriteSets_afterDrw hx hy]
    refine and_congr_right fun hset => ?_
    rw [pixel_afterDrw, decide_eq_true hset, Bool.xor_true, Bool.not_eq_true']

end Sys2Proof.Machine
end

section
/-! SUPPORT. The statements about the key and timer instructions (45_input_timer.md): the key that a skip tests, and the
timer, the tone or the key wait that an instruction sets. -/

namespace Sys2Proof.Machine

section
variable (s : State) (x : Reg)

/-! ### The key an instruction names, and the tone (45_input_timer.md R141; 10_state.md R50) -/

theorem keyDown_keyNumber : s.keyDown (s.keyNumber x) = s.keys.getLsbD ((s.getV x).toNat % 16) := rfl

theorem not_keyDown_keyNumber_iff :
    (!s.keyDown (s.keyNumber x)) = true ↔ s.keys.getLsbD ((s.getV x).toNat % 16) = false := by
  rw [keyDown_keyNumber, Bool.not_eq_true']

theorem tonePort_iff : s.tonePort = true ↔ s.st ≠ 0 := bne_iff_ne

/-! ### What the instructions leave unchanged -/

/-- The frame of LD DT,Vx. -/
theorem advance_setDt_frame (b : Byte) : (s.advance.setDt b).pc = s.pc + 2 ∧
    KeepsRegsBut [] s (s.advance.setDt b) ∧ KeepsAllBut [.delay] s (s.advance.setDt b) :=
  ⟨rfl, keepsRegsBut_advance [] s, by simp⟩

/-- The frame of LD ST,Vx. -/
theorem advance_setSt_frame (b : Byte) : (s.advance.setSt b).pc = s.pc + 2 ∧
    KeepsRegsBut [] s (s.advance.setSt b) ∧ KeepsAllBut [.sound] s (s.advance.setSt b) :=
  ⟨rfl, keepsRegsBut_advance [] s, by simp⟩

/-- The frame of LD Vx,K: the register it names is written by a later poll (40_cycle.md R99). -/
theorem advance_enterWait_frame : (s.advance.enterWait x).pc = s.pc + 2 ∧
    KeepsRegsBut [] s (s.advance.enterWait x) ∧ KeepsAllBut [.control] s (s.advance.enterWait x) :=
  ⟨rfl, keepsRegsBut_advance [] s, by simp⟩

end

/-! ### The statements -/

/-- Settles O50: SKP and SKNP are the prologue and a skip, on one bit of the key mask and on its negation. -/
theorem keySkipsTestTheMask : Obligations.KeySkipsTestTheMask := fun s x =>
  ⟨decodeWord_encode (.skp x), decodeWord_encode (.sknp x),
    next_skipIf_effect s (by rw [keyDown_keyNumber]), next_skipIf_effect s (not_keyDown_keyNumber_iff s x)⟩

/-- Settles O51: the write of `Vx` after the prologue, which leaves `DT` as it was. -/
theorem delayTimerIsRead : Obligations.DelayTimerIsRead := fun s x =>
  ⟨decodeWord_encode (.ldVxDt x), _, rfl, getV_setV_same _ x s.dt, advance_setV_frame s x s.dt⟩

/-- Settles O52: the snapshot is of `KEYS` as the prologue leaves it, which is as it was. -/
theorem keyWaitIsEntered : Obligations.KeyWaitIsEntered := fun s x =>
  ⟨decodeWord_encode (.ldVxK x), s.advance.enterWait x, rfl, rfl, rfl, rfl, rfl, advance_enterWait_frame s x⟩

/-- Settles O53: each timer takes the byte of `Vx`, and the tone port reads the sound timer. -/
theorem timersAreSet : Obligations.TimersAreSet := fun s x =>
  ⟨decodeWord_encode (.ldDtVx x), decodeWord_encode (.ldStVx x),
    ⟨s.advance.setDt (s.getV x), rfl, rfl, advance_setDt_frame s (s.getV x)⟩,
    ⟨s.advance.setSt (s.getV x), rfl, rfl, tonePort_iff _, advance_setSt_frame s (s.getV x)⟩⟩

end Sys2Proof.Machine
end

section
/-! SUPPORT. The statements about faults and the timer engine (60_exceptions.md): which check a faulting step has failed,
what a tick does, and the load that is too large. -/

namespace Sys2Proof.Machine

section
variable {s t : State} {i : Instr}

/-! ### The fetch check and the decode (60_exceptions.md R150, R154) -/

theorem fetchable_eq_false_iff (pc : Word) : fetchable pc = false ↔ pc.toNat < 0x200 ∨ 0xFFE < pc.toNat := by
  rw [← Bool.not_eq_true, fetchable_iff]
  omega

theorem instructionStep_of_not_fetchable (hf : fetchable s.pc = false) :
    instructionStep s = .next (s.raise .fetchRange 0x0000 s.pc) := by
  simp only [instructionStep, hf, Bool.false_eq_true, if_false]

theorem instructionStep_of_invalid (hf : fetchable s.pc = true) (hd : ∀ i, decodeWord s.fetchWord ≠ .ok i) :
    instructionStep s = .next (s.raise .invalidOpcode s.fetchWord s.pc) := by
  rcases instructionStep_cases s with ⟨hf', -⟩ | ⟨-, -, he⟩ | ⟨i, -, hi, -⟩
  · exact nomatch hf.symm.trans hf'
  · exact he
  · exact absurd hi (hd i)

/-! ### Which check a faulting step has failed (60_exceptions.md R157) -/

theorem sp_eq_zero_of_ret_faulted {z : Nibble} (h : exec (.ret z) s = .next t) (hs : s.status ≠ .faulted)
    (ht : t.status = .faulted) : s.sp.val = 0 := by
  by_contra hsp
  obtain ⟨u, hu, -, -, heq⟩ := exec_ret_of_live (s := s) (z := z) (Nat.pos_of_ne_zero hsp)
  cases hu.symm.trans h
  rw [heq] at ht
  exact hs ht

theorem sp_eq_sixteen_of_call_faulted {nnn : Addr12} (h : exec (.call nnn) s = .next t) (hs : s.status ≠ .faulted)
    (ht : t.status = .faulted) : s.sp.val = 16 := by
  by_contra hsp
  have hroom : s.sp.val < 16 := Nat.lt_of_le_of_ne (Nat.le_of_lt_succ s.sp.isLt) hsp
  obtain ⟨u, hu, -, -, -, heq⟩ := exec_call_of_room (s := s) (nnn := nnn) hroom
  cases hu.symm.trans h
  rw [heq] at ht
  exact hs ht

/-- The instruction checks the range of a memory access (43_index_memory.md R133-R135, 44_display.md R139). -/
def ChecksRange (i : Instr) : Prop :=
  (∃ x y n, i = .drw x y n) ∨ (∃ x, i = .ldB x) ∨ (∃ x, i = .ldStore x) ∨ ∃ x, i = .ldLoad x

/-- An instruction that faults has failed its own check, and records it. -/
theorem exec_faulted_cases (h : exec i s = .next t) (hs : s.status ≠ .faulted) (ht : t.status = .faulted) :
    (t.fault.cause = .stackUnderflow ∧ s.sp.val = 0 ∧ ∃ z, i = .ret z) ∨
    (t.fault.cause = .stackOverflow ∧ s.sp.val = 16 ∧ ∃ nnn, i = .call nnn) ∨
    (t.fault.cause = .addressRange ∧ ChecksRange i) := by
  obtain ⟨c, hc, heq⟩ := exec_faulted h hs ht
  have hcause : t.fault.cause = c := by rw [heq, raise_fault]
  cases i with
  | ret z =>
    cases hc
    exact .inl ⟨hcause, sp_eq_zero_of_ret_faulted h hs ht, z, rfl⟩
  | call nnn =>
    cases hc
    exact .inr (.inl ⟨hcause, sp_eq_sixteen_of_call_faulted h hs ht, nnn, rfl⟩)
  | drw | ldB | ldStore | ldLoad =>
    cases hc
    exact .inr (.inr ⟨hcause, by simp [ChecksRange]⟩)
  | _ => cases hc

/-- A stop is no fault, so a faulting step from RUNNING is an instruction step of the granted state. -/
theorem instructionStep_of_step_faulted (hc : CpuTurn s) (hs : s.status = .running) (h : step s = .next t)
    (ht : t.status = .faulted) : instructionStep s.granted = .next t := by
  cases hrun : s.run with
  | false =>
    cases (step_cleared_run hc hrun (.inl hs)).symm.trans h
    exact nomatch ht
  | true => exact (step_running hc hs hrun).symm.trans h

/-- A faulting step from RUNNING has failed the fetch check, or passed it and found an INVALID word, or passed both and
faulted in the execution. -/
theorem step_faulted_cases (hc : CpuTurn s) (hs : s.status = .running) (h : step s = .next t) (ht : t.status = .faulted) :
    (t.fault.cause = .fetchRange ∧ fetchable s.pc = false) ∨
    (t.fault.cause = .invalidOpcode ∧ fetchable s.pc = true ∧ ∀ i, decodeWord (readWord s.mem s.pc.toNat) ≠ .ok i) ∨
    (∃ i, fetchable s.pc = true ∧ decodeWord (readWord s.mem s.pc.toNat) = .ok i ∧ exec i s.granted = .next t) := by
  have hstep := instructionStep_of_step_faulted hc hs h ht
  rcases instructionStep_cases s.granted with ⟨hf, he⟩ | ⟨hf, hd, he⟩ | ⟨i, hf, hd, he⟩
  · cases he.symm.trans hstep
    exact .inl ⟨rfl, hf⟩
  · cases he.symm.trans hstep
    exact .inr (.inl ⟨rfl, hf, hd⟩)
  · exact .inr (.inr ⟨i, hf, hd, he.symm.trans hstep⟩)

/-! ### The timer tick (60_exceptions.md R163) -/

theorem countDown_toNat (b : Byte) : (countDown b).toNat = b.toNat - 1 := by
  unfold countDown
  split
  · next hb => rw [hb]; rfl
  · next hb => bv_omega

theorem timerTick_of_live (h : s.status = .running ∨ s.status = .waitingKey) :
    s.timerTick = { s with dt := countDown s.dt, st := countDown s.st } := by
  have he : s.ended = false := by rcases h with h | h <;> simp [State.ended, h]
  simp only [State.timerTick, he, Bool.false_eq_true, if_false]

theorem timerTick_frame (s : State) : s.timerTick = { s with dt := s.timerTick.dt, st := s.timerTick.st } := by
  unfold State.timerTick
  split <;> rfl

/-! ### The load that is too large (60_exceptions.md R155) -/

theorem load_of_oversized {image : List Byte} (hopen : s.loadOpen = true) (hlen : 3584 < image.length) :
    s.load image = .next (State.raise { s with loadOpen := false } .loadOverflow 0x0000 0x0200) := by
  simp only [State.load, hopen, if_true, Config.maxImage, Nat.not_le_of_lt hlen, if_false]

end

/-! ### The statements -/

/-- Settles O20: in each of the five ways a step can fault, the recorded cause decides every clause. -/
theorem faultCausesFollowPriority : Obligations.FaultCausesFollowPriority := by
  intro s t hc hs h ht
  have hlive : s.granted.status ≠ .faulted := fun hf => nomatch hs.symm.trans hf
  rw [← fetchable_iff]
  rcases step_faulted_cases hc hs h ht with ⟨hcause, hf⟩ | ⟨hcause, hf, hd⟩ | ⟨i, hf, hd, hexec⟩
  · simp [hcause, hf]
  · simp [hcause, hf, hd]
  · rcases exec_faulted_cases hexec hlive ht with ⟨hcause, hsp, z, rfl⟩ | ⟨hcause, hsp, nnn, rfl⟩ | ⟨hcause, hi⟩ <;>
      rw [hcause]
    · exact ⟨by simp [hf], by simp [hd], nofun, fun _ => ⟨hsp, z, hd⟩, nofun⟩
    · exact ⟨by simp [hf], by simp [hd], fun _ => ⟨hsp, nnn, hd⟩, nofun, nofun⟩
    · exact ⟨by simp [hf], by simp [hd], nofun, nofun, fun _ => ⟨i, hd, hi⟩⟩

/-- Settles O12: the fetch check is the first of the step's checks. -/
theorem fetchOutsideWindowFaults : Obligations.FetchOutsideWindowFaults := by
  intro s hc hs hrun hpc
  have hf : fetchable s.granted.pc = false := (fetchable_eq_false_iff s.pc).2 hpc
  exact ⟨_, (step_running hc hs hrun).trans (instructionStep_of_not_fetchable hf), rfl⟩

/-- Settles O13: the granted state has the `pc` and the memory of `s`, so it fetches the same word. -/
theorem invalidWordFaults : Obligations.InvalidWordFaults := by
  intro s hc hs hrun hlow hhigh hd
  have hf : fetchable s.granted.pc = true := (fetchable_iff s.pc).2 ⟨hlow, hhigh⟩
  exact ⟨_, (step_running hc hs hrun).trans (instructionStep_of_invalid hf hd), rfl⟩

/-- Settles O22: a tick of a live run counts both timers down, a tick of an ended run does nothing. -/
theorem tickCountsBothTimersDown : Obligations.TickCountsBothTimersDown := by
  intro s rest hp
  refine ⟨_, step_cons hp, timerTick_frame _, fun hlive => ?_, fun hended => ?_⟩
  · rw [timerTick_of_live (s := { s with pending := rest }) hlive]
    exact ⟨countDown_toNat s.dt, countDown_toNat s.st⟩
  · rw [timerTick_of_ended (s := { s with pending := rest }) ((ended_iff _).2 hended)]
    exact ⟨rfl, rfl⟩

/-- Settles O24: the load of the state without its event, which is too large for the image area. -/
theorem oversizedLoadFaults : Obligations.OversizedLoadFaults := fun s _ rest hp hopen hlen =>
  (step_cons hp).trans (load_of_oversized (s := { s with pending := rest }) hopen hlen)

end Sys2Proof.Machine
end

section
/-! SUPPORT. The statements about reset and hazards (70_reset_and_hazards.md): what each agent makes of the load window, the
load of an image that fits, and which step can raise the delay timer. -/

namespace Sys2Proof.Machine

section
variable {s t : State}

/-! ### A load by its window and its size (70_reset_and_hazards.md R175, R177) -/

theorem load_of_fitting {image : List Byte} (hopen : s.loadOpen = true) (hlen : image.length ≤ 3584) :
    s.load image = .next { s with loadOpen := false, mem := writeBytes s.mem 0x200 image } := by
  simp only [State.load, hopen, if_true, Config.maxImage, hlen, Config.progBase]

theorem load_of_closed {image : List Byte} (hclosed : s.loadOpen = false) :
    s.load image = .refused .loadOutOfOrder := by
  simp only [State.load, hclosed, Bool.false_eq_true, if_false]

/-- An accepted load closes the window, whether its image fits or not. -/
theorem load_closes_window {image : List Byte} (h : s.load image = .next t) : t.loadOpen = false := by
  obtain ⟨-, ⟨-, rfl⟩ | ⟨-, rfl⟩⟩ := load_cases h <;> rfl

/-! ### The load window, agent by agent (70_reset_and_hazards.md R172, R177) -/

theorem State.LoadWindow.of_closed (hclosed : s.loadOpen = false) : s.LoadWindow :=
  fun hopen => nomatch hclosed.symm.trans hopen

/-- A reset leaves to the host what the host owns, so the window's state may have any of it. -/
theorem State.LoadWindow.of_inputs (hw : s.LoadWindow) (keys : Word) (run : Bool) (pending : List Event) :
    State.LoadWindow { s with keys := keys, run := run, pending := pending } :=
  fun hopen => congrArg (fun u : State => { u with keys := keys, run := run, pending := pending }) (hw hopen)

theorem State.LoadWindow.afterReset (s : State) : s.afterReset.LoadWindow := fun _ => rfl

/-- A reset leaves both timers at 0, where a tick leaves them (60_exceptions.md R163). -/
theorem timerTick_afterReset (s : State) : s.afterReset.timerTick = s.afterReset := rfl

theorem State.LoadWindow.timerTick (hw : s.LoadWindow) : s.timerTick.LoadWindow := by
  intro hopen
  rw [timerTick_frame] at hopen
  have hreset : s.afterReset = s := hw hopen
  have htick : s.timerTick = s := by rw [← hreset, timerTick_afterReset]
  rw [htick, hreset]

/-! ### Who can change the delay timer (70_reset_and_hazards.md R183) -/

theorem delay_mem_writtenParts {i : Instr} (h : .delay ∈ writtenParts i) : ∃ x, i = .ldDtVx x := by
  cases i <;> simp [writtenParts] at h ⊢

theorem exec_dt_cases {i : Instr} (h : exec i s = .next t) :
    t.dt = s.dt ∨ ∃ x, i = .ldDtVx x ∧ t.dt = s.getV x := by
  by_cases hi : .delay ∈ writtenParts i
  · obtain ⟨x, rfl⟩ := delay_mem_writtenParts hi
    cases h
    exact .inr ⟨x, rfl, rfl⟩
  · rcases exec_keepsAllBut_or_raises h with hkeep | ⟨_, -, rfl⟩
    · exact .inl (hkeep .delay hi)
    · exact .inl rfl

theorem instructionStep_dt_cases (h : instructionStep s = .next t) :
    t.dt = s.dt ∨
      (fetchable s.pc = true ∧ ∃ x, decodeWord s.fetchWord = .ok (.ldDtVx x) ∧ t.dt = s.getV x) := by
  rcases instructionStep_cases s with ⟨-, he⟩ | ⟨-, -, he⟩ | ⟨i, hf, hd, he⟩ <;> rw [he] at h
  · cases h
    exact .inl rfl
  · cases h
    exact .inl rfl
  · refine (exec_dt_cases h).imp_right ?_
    rintro ⟨x, rfl, hx⟩
    exact ⟨hf, x, hd, hx⟩

theorem poll_dt (s : State) : s.poll.dt = s.dt := by
  rcases poll_cases s with ⟨_, -, -, -, heq⟩ | ⟨-, heq⟩ <;> exact (congrArg State.dt heq).trans rfl

theorem timerTick_dt_le (s : State) : s.timerTick.dt.toNat ≤ s.dt.toNat := by
  unfold State.timerTick
  split
  · exact Nat.le_refl _
  · exact (countDown_toNat s.dt).trans_le (Nat.sub_le _ _)

theorem load_keeps_dt {image : List Byte} (h : s.load image = .next t) : t.dt = s.dt := by
  obtain ⟨-, ⟨-, rfl⟩ | ⟨-, rfl⟩⟩ := load_cases h <;> rfl

end

/-! ### The statements -/

/-- Settles O4: a CPU step and a load close the window, a reset opens it on its own result, and of the other agents only
the tick writes core state. -/
theorem stepKeepsLoadWindow : Obligations.StepKeepsLoadWindow := by
  intro s t hw h
  rcases step_cases h with ⟨-, -, -, rfl⟩ | ⟨-, -, -, rfl⟩ | ⟨-, -, -, h⟩ | ⟨rest, -, -, rfl⟩ | ⟨rest, -, rfl⟩ |
    ⟨mask, rest, -, rfl⟩ | ⟨flag, rest, -, rfl⟩ | ⟨_, -, rfl⟩ | ⟨_, _, -, h⟩
  · exact .of_closed rfl
  · obtain ⟨-, -, hopen, -⟩ := poll_keeps_inputs s.granted
    exact .of_closed hopen
  · obtain ⟨-, -, hopen, -⟩ := instructionStep_keeps_inputs h
    exact .of_closed hopen
  · exact hw.of_inputs s.keys s.run rest
  · exact (hw.of_inputs s.keys s.run rest).timerTick
  · exact hw.of_inputs mask s.run rest
  · exact hw.of_inputs s.keys flag rest
  · exact .afterReset _
  · exact .of_closed (load_closes_window h)

/-- Settles O23: the load is one block write at 0x200 (R175). -/
theorem loadCopiesImageVerbatim : Obligations.LoadCopiesImageVerbatim := fun s _ rest hp hopen hlen =>
  ⟨_, (step_cons hp).trans (load_of_fitting (s := { s with pending := rest }) hopen hlen),
    fun _ hk => readByte_writeBytes_inside hk, fun _ hb => readByte_writeBytes_outside hb, rfl⟩

/-- Settles O56: an instruction step changes `DT` only by an LD DT,Vx, a tick lowers it, a reset clears it, and every other
turn keeps it. -/
theorem delayTimerRisesOnlyByItsLoad : Obligations.DelayTimerRisesOnlyByItsLoad := by
  intro s t h
  rcases step_cases h with ⟨-, -, -, rfl⟩ | ⟨-, -, -, rfl⟩ | ⟨hc, hs, hrun, h⟩ | ⟨_, -, -, rfl⟩ | ⟨_, -, rfl⟩ |
    ⟨_, _, -, rfl⟩ | ⟨_, _, -, rfl⟩ | ⟨_, -, rfl⟩ | ⟨_, _, -, h⟩
  · exact .inl (Nat.le_refl _)
  · exact .inl (congrArg BitVec.toNat (poll_dt s.granted)).le
  · rcases instructionStep_dt_cases h with hdt | ⟨hf, x, hd, hx⟩
    · exact .inl (congrArg BitVec.toNat hdt).le
    · obtain ⟨hlow, hhigh⟩ := (fetchable_iff _).1 hf
      exact .inr ⟨hc, hs, hrun, hlow, hhigh, x, hd, hx⟩
  · exact .inl (Nat.le_refl _)
  · exact .inl (timerTick_dt_le _)
  · exact .inl (Nat.le_refl _)
  · exact .inl (Nat.le_refl _)
  · exact .inl (Nat.zero_le _)
  · exact .inl (congrArg BitVec.toNat (load_keeps_dt h)).le

/-- Settles O25: an image of either size closes the window, a closed window refuses it, and a live CPU step always ends
with the window closed (O18). -/
theorem lateLoadIsRefused : Obligations.LateLoadIsRefused := by
  refine ⟨fun s image rest hp hopen => ?_, fun s _ rest hp hclosed => ?_, fun s t hc hs h => ?_⟩
  · rcases Nat.lt_or_ge 3584 image.length with hlen | hlen
    · exact ⟨_, oversizedLoadFaults s image rest hp hopen hlen, rfl⟩
    · exact ⟨_, (step_cons hp).trans (load_of_fitting (s := { s with pending := rest }) hopen hlen), rfl⟩
  · exact (step_cons hp).trans (load_of_closed (s := { s with pending := rest }) hclosed)
  · obtain ⟨u, hu, hopen, -⟩ := liveCpuStepAnswersNext s hc hs
    cases hu.symm.trans h
    exact hopen

end Sys2Proof.Machine
end

section
/-! SUPPORT. The statement about the reset state itself (10_state.md R46): it is its own reset, so what holds after every
reset holds of it. -/

namespace Sys2Proof.Machine

/-- The fields a reset leaves to the host and to the model are in the reset state its own. -/
theorem afterReset_reset : State.reset.afterReset = State.reset := rfl

/-- Settles O2: both invariants hold after every reset, and the reset state is its own reset. -/
theorem resetMeetsInvariants : Obligations.ResetMeetsInvariants := by
  have h : State.reset.afterReset.Inv ∧ State.reset.afterReset.LoadWindow := ⟨.afterReset _, .afterReset _⟩
  rwa [afterReset_reset] at h

end Sys2Proof.Machine
end
